-- ==== Sys2Proof/Word.lean ====
section
/-!
DEFINITION. The widths of the bit vectors the block is built from (00_scope.md R5, 10_state.md R31).
-/
namespace Sys2Proof

/-- A 16-bit bit vector: a register, a memory cell, `pc` or `ir` (R5 `WORD_WIDTH`, R31). -/
abbrev Word := BitVec 16

/-- An output character (R5 "output character width"). -/
abbrev Byte := BitVec 8

/-- The condition code: bit 2 is N, bit 1 is Z, bit 0 is P (R19). -/
abbrev CondCode := BitVec 3

/-- A register specifier, read as unsigned (R11, R62). -/
abbrev RegIdx := BitVec 3

end Sys2Proof
end

