-- ==== Sys2Proof/Config.lean ====
section
/-!
DEFINITION. The fixed parameters of 00_scope.md R5 that the model refers to by name. "Every one is stated by the document,
and none is left to the implementation": nothing here varies, and the spec leaves no value free, so there is no opaque
constant. The widths of R5 are the widths of the types in Word.lean and Syntax.lean.
-/
namespace Sys2Proof.Config

/-- `MEM_SIZE`: the cells are 0 to 49 (R5, R27). -/
abbrev memSize : Nat := 50

/-- The trap vector that halts (R95). -/
abbrev haltVector : BitVec 6 := 0x25#6

/-- The trap vector that prints a character (R96). -/
abbrev outVector : BitVec 6 := 0x21#6

end Sys2Proof.Config
end

