-- ==== Sys2Proof/Syntax.lean ====
section
/-!
DEFINITION. The instructions: one constructor per row of spec/opcode_table.json, with the fields of its format
(30_encoding.md R55 to R61).

The bits a format marks "ignored" are carried as a last field or between the operands, so that an instruction and its word
determine each other. No meaning reads them (R64). DESIGN CHOICE, safe (log 5).
-/
namespace Sys2Proof

inductive Instr where
  /-- BR, opcode 0 (R55, R86). -/
  | br (nzp : BitVec 3) (off9 : BitVec 9)
  /-- ADD, register mode, opcode 1 with bits[5] = 0 (R56, R88). -/
  | addReg (dr sr1 : RegIdx) (ign : BitVec 2) (sr2 : RegIdx)
  /-- ADD, immediate mode, opcode 1 with bits[5] = 1 (R57, R89). -/
  | addImm (dr sr1 : RegIdx) (imm5 : BitVec 5)
  /-- LD, opcode 2 (R58, R93). -/
  | ld (dr : RegIdx) (off9 : BitVec 9)
  /-- AND, register mode, opcode 5 with bits[5] = 0 (R56, R90). -/
  | andReg (dr sr1 : RegIdx) (ign : BitVec 2) (sr2 : RegIdx)
  /-- AND, immediate mode, opcode 5 with bits[5] = 1 (R57, R91). -/
  | andImm (dr sr1 : RegIdx) (imm5 : BitVec 5)
  /-- NOT, opcode 9 (R59, R92). -/
  | notReg (dr sr : RegIdx) (ign : BitVec 6)
  /-- TRAP x25, opcode 15 (R60, R95). -/
  | trapHalt (ign : BitVec 6)
  /-- TRAP x21, opcode 15 (R60, R96). -/
  | trapOut (ign : BitVec 6)
  /-- TRAP with any other vector, opcode 15 (R60, R97). -/
  | trapNop (ign vec : BitVec 6)
  /-- Opcode 3, ignored (R61, R98). -/
  | ignored3 (ign : BitVec 12)
  /-- Opcode 4, ignored (R61, R99). -/
  | ignored4 (ign : BitVec 12)
  /-- Opcode 6, ignored (R61, R100). -/
  | ignored6 (ign : BitVec 12)
  /-- Opcode 7, ignored (R61, R101). -/
  | ignored7 (ign : BitVec 12)
  /-- Opcode 8, ignored (R61, R102). -/
  | ignored8 (ign : BitVec 12)
  /-- Opcode 10, ignored (R61, R103). -/
  | ignored10 (ign : BitVec 12)
  /-- Opcode 11, ignored (R61, R104). -/
  | ignored11 (ign : BitVec 12)
  /-- Opcode 12, ignored (R61, R105). -/
  | ignored12 (ign : BitVec 12)
  /-- Opcode 13, ignored (R61, R106). -/
  | ignored13 (ign : BitVec 12)
  /-- Opcode 14, ignored (R61, R107). -/
  | ignored14 (ign : BitVec 12)
  deriving DecidableEq, Repr

end Sys2Proof
end

