-- ==== Sys2Proof/WellFormed.lean ====
section
/-!
DEFINITION. Which terms of Instr stand for a word. Every field has exactly its encoding's width, so the one thing that can
be wrong is a `trapNop` that names a vector of the other two TRAP rows (R97: "vvvvvv neither 100101 nor 100001").
-/
namespace Sys2Proof

def Instr.wf (i : Instr) : Bool :=
  match i with
  | .br _ _ => true
  | .addReg _ _ _ _ => true
  | .addImm _ _ _ => true
  | .ld _ _ => true
  | .andReg _ _ _ _ => true
  | .andImm _ _ _ => true
  | .notReg _ _ _ => true
  | .trapHalt _ => true
  | .trapOut _ => true
  | .trapNop _ vec => decide (vec ≠ Config.haltVector) && decide (vec ≠ Config.outVector)
  | .ignored3 _ => true
  | .ignored4 _ => true
  | .ignored6 _ => true
  | .ignored7 _ => true
  | .ignored8 _ => true
  | .ignored10 _ => true
  | .ignored11 _ => true
  | .ignored12 _ => true
  | .ignored13 _ => true
  | .ignored14 _ => true

end Sys2Proof
end

