-- ==== Sys2Proof/Decode.lean ====
section
/-!
DEFINITION. The decoder and, after it, the encoder (30_encoding.md R53 to R65). Bits are numbered from 0, the least
significant (R7): `field lo len w` is the spec's `w[lo+len-1 : lo]`.

The decoder is total and rejects nothing: "Every one of the 65,536 16-bit words decodes, and none is illegal" (R64).
-/
namespace Sys2Proof

/-- The `len` bits of `w` from bit `lo` up (R7). -/
def field (lo len : Nat) (w : Word) : BitVec len := w.extractLsb' lo len

/-- A word that holds `f` from bit `lo` up and zeros elsewhere. -/
def place {len : Nat} (lo : Nat) (f : BitVec len) : Word := f.setWidth 16 <<< lo

/-- Decode and dispatch of R72 over the opcode `ir[15:12]` (R54, R63), the mode bit `ir[5]` of ADD and AND (R56, R57)
and TRAP's vector `ir[5:0]` (R60, R94). -/
def decode (w : Word) : Instr :=
  let op := field 12 4 w
  let dr := field 9 3 w
  let sr1 := field 6 3 w
  let sr2 := field 0 3 w
  let imm5 := field 0 5 w
  let off9 := field 0 9 w
  let rest := field 0 12 w
  let register := field 5 1 w = 0#1
  if op = 0#4 then .br (field 9 3 w) off9
  else if op = 1#4 then
    if register then .addReg dr sr1 (field 3 2 w) sr2 else .addImm dr sr1 imm5
  else if op = 2#4 then .ld dr off9
  else if op = 3#4 then .ignored3 rest
  else if op = 4#4 then .ignored4 rest
  else if op = 5#4 then
    if register then .andReg dr sr1 (field 3 2 w) sr2 else .andImm dr sr1 imm5
  else if op = 6#4 then .ignored6 rest
  else if op = 7#4 then .ignored7 rest
  else if op = 8#4 then .ignored8 rest
  else if op = 9#4 then .notReg dr sr1 (field 0 6 w)
  else if op = 10#4 then .ignored10 rest
  else if op = 11#4 then .ignored11 rest
  else if op = 12#4 then .ignored12 rest
  else if op = 13#4 then .ignored13 rest
  else if op = 14#4 then .ignored14 rest
  else
    let vec := field 0 6 w
    if vec = Config.haltVector then .trapHalt (field 6 6 w)
    else if vec = Config.outVector then .trapOut (field 6 6 w)
    else .trapNop (field 6 6 w) vec

/-- The word of an instruction, from the format tables R55 to R61. -/
def encode (i : Instr) : Word :=
  match i with
  | .br nzp off9 => place 12 0#4 ||| place 9 nzp ||| place 0 off9
  | .addReg dr sr1 ign sr2 =>
    place 12 1#4 ||| place 9 dr ||| place 6 sr1 ||| place 5 0#1 ||| place 3 ign ||| place 0 sr2
  | .addImm dr sr1 imm5 => place 12 1#4 ||| place 9 dr ||| place 6 sr1 ||| place 5 1#1 ||| place 0 imm5
  | .ld dr off9 => place 12 2#4 ||| place 9 dr ||| place 0 off9
  | .andReg dr sr1 ign sr2 =>
    place 12 5#4 ||| place 9 dr ||| place 6 sr1 ||| place 5 0#1 ||| place 3 ign ||| place 0 sr2
  | .andImm dr sr1 imm5 => place 12 5#4 ||| place 9 dr ||| place 6 sr1 ||| place 5 1#1 ||| place 0 imm5
  | .notReg dr sr ign => place 12 9#4 ||| place 9 dr ||| place 6 sr ||| place 0 ign
  | .trapHalt ign => place 12 15#4 ||| place 6 ign ||| place 0 Config.haltVector
  | .trapOut ign => place 12 15#4 ||| place 6 ign ||| place 0 Config.outVector
  | .trapNop ign vec => place 12 15#4 ||| place 6 ign ||| place 0 vec
  | .ignored3 ign => place 12 3#4 ||| place 0 ign
  | .ignored4 ign => place 12 4#4 ||| place 0 ign
  | .ignored6 ign => place 12 6#4 ||| place 0 ign
  | .ignored7 ign => place 12 7#4 ||| place 0 ign
  | .ignored8 ign => place 12 8#4 ||| place 0 ign
  | .ignored10 ign => place 12 10#4 ||| place 0 ign
  | .ignored11 ign => place 12 11#4 ||| place 0 ign
  | .ignored12 ign => place 12 12#4 ||| place 0 ign
  | .ignored13 ign => place 12 13#4 ||| place 0 ign
  | .ignored14 ign => place 12 14#4 ||| place 0 ign

/-- The memory cell that holds an instruction whose bits are the low `nbits` of `w`. -/
def tableWord (nbits w : Nat) : Word := BitVec.ofNat 16 (w % 2 ^ nbits)

/-- The instruction the decoder reads from the bits of a table row. An instruction is one 16-bit word (R53), so more than
16 bits are no instruction of this block. -/
def decodeTableWord (nbits w : Nat) : Option Instr :=
  if nbits ≤ 16 then some (decode (tableWord nbits w)) else none

end Sys2Proof
end

