-- ==== Sys2Proof/Machine/Operands.lean ====
section
/-!
DEFINITION. The bit-vector datapath (10_state.md R31 to R38) and the operand forms built from it (30_encoding.md R62):
the readings of a vector, its extensions, slicing, assignment, and the effective address and branch target of the two
PC-relative instructions.
-/
namespace Sys2Proof.Machine

/-- The unsigned reading (R8). -/
abbrev uval {n : Nat} (v : BitVec n) : Nat := v.toNat

/-- The two's-complement signed reading (R8). -/
abbrev sval {n : Nat} (v : BitVec n) : Int := v.toInt

/-- The word whose unsigned reading is `n mod 2^16`, the remainder taken in [0, 65535] (R9). -/
def wrap16 (n : Int) : Word := BitVec.ofInt 16 n

/-- `sext_16` (R9, R62). -/
def sext16 {n : Nat} (v : BitVec n) : Word := v.signExtend 16

/-- `zext_16` (R9). -/
def zext16 {n : Nat} (v : BitVec n) : Word := v.setWidth 16

/-- `slice(start, width)` in the document's numbering, digit 0 the most significant (R6, R32). Outside the 16 digits there
is no slice: the engine never asks for one (93_implementation_defined.md U2). -/
def docSlice (start width : Nat) (v : Word) : Option (BitVec width) :=
  if start + width ≤ 16 then some (v.extractLsb' (16 - start - width) width) else none

/-- `setUnsigned(n)`, for 0 <= n <= 65535 only (R33, U4). -/
def setUnsigned (n : Int) : Option Word :=
  if 0 ≤ n ∧ n ≤ 65535 then some (BitVec.ofInt 16 n) else none

/-- `setSigned(n)`, for -32768 <= n <= 32767 only (R34, U1). -/
def setSigned (n : Int) : Option Word :=
  if -32768 ≤ n ∧ n ≤ 32767 then some (BitVec.ofInt 16 n) else none

/-- `invert()` (R35). -/
def invert (v : Word) : Word := ~~~v

/-- `incrementByOne()` (R36). -/
def incrementByOne (v : Word) : Word := wrap16 (uval v + 1)

/-- `rawDigits()`: the 16 digits, the most significant first (R38, R6). -/
def rawDigits (v : Word) : Vector Bool 16 := Vector.ofFn fun d => v.getMsbD d

/-- `setRawDigits(s)` (R38). -/
def setRawDigits (ds : Vector Bool 16) : Word := BitVec.ofFnLE fun i => ds[15 - i.val]

/-- ADD's sum, wrapped (R37, R88, R89). -/
def addWords (a b : Word) : Word := wrap16 (sval a + sval b)

/-- AND, digit by digit (R90, R91). -/
def andWords (a b : Word) : Word := a &&& b

/-- LD's effective address, formed as a mathematical integer from the incremented `pc` (R93). -/
def loadAddress (pc : Word) (off9 : BitVec 9) : Int := uval pc + sval (sext16 off9)

/-- BR's target, from the incremented `pc`, modulo 2^16 (R86, R87). -/
def branchTarget (pc : Word) (off9 : BitVec 9) : Word := wrap16 (uval pc + sval (sext16 off9))

/-- The low 8 bits of a register, TRAP x21's character (R96). -/
def lowByte (v : Word) : Byte := v.extractLsb' 0 8

end Sys2Proof.Machine
end

