-- ==== Sys2Proof/Machine/Flags.lean ====
section
/-!
DEFINITION. The condition code: its derivation from a result (10_state.md R21) and BR's test of it (41_branch.md R86).
-/
namespace Sys2Proof.Machine

/-- The condition code of a 16-bit result (R21). -/
def setcc (r : Word) : CondCode :=
  if sval r < 0 then 0b100#3 else if uval r = 0 then 0b010#3 else 0b001#3

/-- Whether BR is taken: some requested bit is set in `cc` too (R86). -/
def branchTaken (nzp : BitVec 3) (cc : CondCode) : Bool := decide (nzp &&& cc ≠ 0b000#3)

/-- The N flag (R19). -/
def flagN (cc : CondCode) : Bool := cc.getLsbD 2

/-- The Z flag (R19). -/
def flagZ (cc : CondCode) : Bool := cc.getLsbD 1

/-- The P flag (R19). -/
def flagP (cc : CondCode) : Bool := cc.getLsbD 0

end Sys2Proof.Machine
end

