-- ==== Sys2Proof/Machine/State.lean ====
section
/-!
DEFINITION. The state of the block as plain data, the reasons a step can stop, and the power-on state
(10_state.md R11 to R30, 70_reset_and_hazards.md R123).
-/
namespace Sys2Proof.Machine

/-- A memory cell that is listed: its address and its 16-bit content. The block is word-addressed and has no byte
(20_memory.md R42), so a cell is a word, not a byte of `Host.Cell`. DEDUCED, safe (log 3). -/
abbrev Cell := Nat × Word

/-- The memory, as the cells that do not hold 0x0000, by rising address. An unlisted cell holds 0x0000, its content at
power-on and after the reset command (R27, R126). -/
abbrev Memory := List Cell

/-- The run status (R28). -/
inductive RunStatus where
  /-- No run has started since power-on. -/
  | idle
  /-- A run is in progress. -/
  | running
  /-- The last run ended by a halt trap. -/
  | halted
  /-- The last run raised OutOfRangeError. -/
  | faulted
  deriving DecidableEq, Repr

/-- The five causes of OutOfRangeError (60_exceptions.md R108). -/
inductive Cause where
  /-- `OOR_FETCH`, the fetch of any step (R70). -/
  | oorFetch
  /-- `OOR_LD`, LD (R93). -/
  | oorLd
  /-- `OOR_HOST_LOAD`, the command `loadWord` (R80). -/
  | oorHostLoad
  /-- `OOR_HOST_SET`, the command `setMemoryCell` (R81). -/
  | oorHostSet
  /-- `OOR_HOST_GET`, the command `getMemoryCell` (R82). -/
  | oorHostGet
  deriving DecidableEq, Repr

/-- `OutOfRangeError(cause, addr)`, the one error; the address is a mathematical integer (R108). The fault record holds
one (R30). -/
structure OutOfRangeError where
  cause : Cause
  addr : Int
  deriving DecidableEq, Repr

/-- The host's commands (40_engine.md R67, R85). -/
inductive HostCommand where
  /-- R80. -/
  | loadWord (addr : Int) (word : Word)
  /-- R81. -/
  | setMemoryCell (addr value : Int)
  /-- R82. -/
  | getMemoryCell (addr : Int)
  /-- R83. -/
  | getRegisters
  /-- R83. -/
  | getConditionCode
  /-- The observation of `pc` (R83). -/
  | readPc
  /-- The observation of `ir` (R83). -/
  | readIr
  /-- The observation of the run status (R83). -/
  | readStatus
  /-- The observation of the fault record (R83). -/
  | readFaultRecord
  /-- The observation of the output stream (R83). -/
  | readOutput
  /-- R69. -/
  | run
  /-- R125 to R127. -/
  | reset
  deriving DecidableEq, Repr

/-- What a command gives back to the host (the column "the host gets back" of R85). -/
inductive HostReply where
  /-- `loadWord`, `setMemoryCell` or `reset` is done and returns nothing. -/
  | done
  /-- OutOfRangeError, from a memory command (R111) or from `run` (R75). -/
  | error (e : OutOfRangeError)
  | cell (w : Word)
  | registers (r : Vector Word 8)
  | conditionCode (c : CondCode)
  | pc (w : Word)
  | ir (w : Word)
  | status (st : RunStatus)
  | faultRecord (f : Option OutOfRangeError)
  | output (l : List Byte)
  /-- `run` returns with no error (R74). -/
  | runReturned
  deriving DecidableEq, Repr

/-- The block's state. The last two fields are the model's own: they hold the boundary with the host as plain data
(DESIGN CHOICE, log 1). -/
structure State where
  /-- R0 to R7 (R11). -/
  regs : Vector Word 8
  /-- The address of the next instruction to fetch (R14). -/
  pc : Word
  /-- The instruction being executed (R18). -/
  ir : Word
  /-- N, Z, P (R19). -/
  cc : CondCode
  /-- The 50 cells (R27). -/
  mem : Memory
  /-- R28. -/
  status : RunStatus
  /-- The output stream, oldest character first (R29). -/
  output : List Byte
  /-- The fault record (R30). -/
  faultRecord : Option OutOfRangeError
  /-- The commands the host is going to give, the next one first. -/
  hostQueue : List HostCommand
  /-- What the commands so far have given back, oldest first. -/
  replies : List HostReply
  deriving DecidableEq, Repr

/-- The reasons a step stops and leaves no state: there are none. The one error of the block, OutOfRangeError, leaves a
state that R109 to R111 give, so the step that raises it answers that next state (DEDUCED, safe, log 2). -/
inductive Fault where
  deriving DecidableEq, Repr

/-- The inputs the spec puts outside the model's domain, and the host's own rejection. -/
inductive Refusal where
  /-- Raised by an arm of `exec` that has no meaning yet; no arm raises it. Safe: nothing is claimed of the step. -/
  | notModelled (mnemonic : String)
  /-- Raised by the command `run` while the status is FAULTED: "is not modelled, and a model refuses it" (R69).
  Safe: nothing is claimed of a resumed run. -/
  | runAfterFault
  /-- Raised by the command `setMemoryCell` for a value outside [-32768, 32767]: it "has no meaning", "and a model
  refuses the command" (R81). Safe: nothing is claimed of the command. -/
  | setMemoryCellValue (value : Int)
  deriving DecidableEq, Repr

/-- The registers at power-on and after the reset command: Ri = i (R12, R126). -/
def powerOnRegs : Vector Word 8 := #v[0, 1, 2, 3, 4, 5, 6, 7]

/-- Power-on (R123). The model's own two fields start empty (DESIGN CHOICE, log 1). -/
def State.reset : State where
  regs := powerOnRegs
  pc := 0
  ir := 0
  cc := 0
  mem := []
  status := .idle
  output := []
  faultRecord := none
  hostQueue := []
  replies := []

end Sys2Proof.Machine
end

