-- ==== Sys2Proof/Machine/Ops.lean ====
section
/-!
DEFINITION. The shared operations over memory, registers and the run: every read and write of the state goes through one
of these.
-/
namespace Sys2Proof.Machine

/-! ## Memory -/

/-- The content of the cell at `a`: 0x0000 where none is listed (R27). The range is checked by `memRead`. -/
def Memory.read (m : Memory) (a : Nat) : Word :=
  match m with
  | [] => 0#16
  | (b, w) :: rest => if b = a then w else Memory.read rest a

/-- The memory with `v` in the cell at `a`, in canonical form: writing 0x0000 removes the entry. -/
def Memory.write (m : Memory) (a : Nat) (v : Word) : Memory :=
  match m with
  | [] => if v = 0#16 then [] else [(a, v)]
  | (b, w) :: rest =>
    if a < b then (if v = 0#16 then (b, w) :: rest else (a, v) :: (b, w) :: rest)
    else if a = b then (if v = 0#16 then rest else (a, v) :: rest)
    else (b, w) :: Memory.write rest a v

/-- Every listed address is at least `lo`, rises strictly, exists, and its cell is not 0x0000. -/
def Memory.wfFrom (lo : Nat) (m : Memory) : Bool :=
  match m with
  | [] => true
  | (a, v) :: rest =>
    decide (lo ≤ a) && decide (a < Config.memSize) && decide (v ≠ 0#16) && Memory.wfFrom (a + 1) rest

/-- The canonical form of a memory. -/
def Memory.wf (m : Memory) : Bool := Memory.wfFrom 0 m

/-- The range check of every access, on the mathematical integer (R40, R41, R52). -/
abbrev addressExists (addr : Int) : Prop := 0 ≤ addr ∧ addr < Config.memSize

/-- `MemRead(addr, 16)` (R40). -/
def memRead (m : Memory) (cause : Cause) (addr : Int) : Except OutOfRangeError Word :=
  if addressExists addr then .ok (m.read addr.toNat) else .error { cause, addr }

/-- `MemWrite(addr, 16, v)` (R41). -/
def memWrite (m : Memory) (cause : Cause) (addr : Int) (v : Word) : Except OutOfRangeError Memory :=
  if addressExists addr then .ok (m.write addr.toNat v) else .error { cause, addr }

/-! ## Reads and writes of one element -/

/-- `x[r]` (R9, R11). No register is hardwired. -/
def State.getReg (s : State) (r : RegIdx) : Word := s.regs[r.toNat]'r.isLt

/-- `x[r] <- v` (R9, R11). -/
def State.setReg (s : State) (r : RegIdx) (v : Word) : State := { s with regs := s.regs.set r.toNat v r.isLt }

def State.setRegs (s : State) (v : Vector Word 8) : State := { s with regs := v }

def State.setPc (s : State) (v : Word) : State := { s with pc := v }

def State.setIr (s : State) (v : Word) : State := { s with ir := v }

def State.setCc (s : State) (v : CondCode) : State := { s with cc := v }

def State.setMem (s : State) (v : Memory) : State := { s with mem := v }

def State.setStatus (s : State) (v : RunStatus) : State := { s with status := v }

def State.setFaultRecord (s : State) (v : Option OutOfRangeError) : State := { s with faultRecord := v }

def State.setHostQueue (s : State) (v : List HostCommand) : State := { s with hostQueue := v }

/-- `Output(c)`: the stream is append-only (R9, R29). -/
def State.pushOutput (s : State) (c : Byte) : State := { s with output := s.output ++ [c] }

/-- A command gives `r` back to the host. -/
def State.pushReply (s : State) (r : HostReply) : State := { s with replies := s.replies ++ [r] }

/-! ## What the instructions share -/

/-- A result-defining instruction writes its destination and derives the condition code from the same value (R22). -/
def State.writeResult (s : State) (dr : RegIdx) (v : Word) : State := (s.setReg dr v).setCc (setcc v)

/-- Nothing beyond the fetch and increment the step has made (R97 to R107). -/
def noEffect (s : State) : Host.Outcome State Fault Refusal := .next s

/-- `halt`: the run ends normally and `run` returns with no error (R74, R95). -/
def State.haltRun (s : State) : State := (s.setStatus .halted).pushReply .runReturned

/-- OutOfRangeError inside a run, the block's one exception: the record is written, the status becomes FAULTED and `run`
returns the error (R75, R110). No handler is entered and nothing is saved (R114), and nothing returns from it (R115), so
no operation stands beside this one. Nothing is rolled back (R109). -/
def State.raiseInRun (s : State) (e : OutOfRangeError) : State :=
  ((s.setFaultRecord (some e)).setStatus .faulted).pushReply (.error e)

/-- Fetch and increment (R68, R70, R71): a completed fetch writes `ir` and then `pc`; one that raises writes nothing. -/
def fetch (s : State) : Except OutOfRangeError State :=
  match memRead s.mem .oorFetch (uval s.pc) with
  | .error e => .error e
  | .ok w => .ok ((s.setIr w).setPc (incrementByOne s.pc))

end Sys2Proof.Machine
end

