-- ==== Sys2Proof/Machine/Branch.lean ====
section
/-!
DEFINITION. BR (41_branch.md). As in every meaning, `s` is the state after the step's fetch and increment: `s.pc` is the
instruction's own address plus one.
-/
namespace Sys2Proof.Machine

/-- R86: no register and no flag is written, and the target is not checked here. -/
def execBr (nzp : BitVec 3) (off9 : BitVec 9) (s : State) : Host.Outcome State Fault Refusal :=
  if branchTaken nzp s.cc then .next (s.setPc (branchTarget s.pc off9)) else .next s

end Sys2Proof.Machine
end

