-- ==== Sys2Proof/Machine/Ignored.lean ====
section
/-!
DEFINITION. The ten ignored opcodes (45_ignored_opcodes.md): "The step's fetch and increment are its only effect."
-/
namespace Sys2Proof.Machine

/-- R98. -/
def execIgnored3 (s : State) : Host.Outcome State Fault Refusal := noEffect s

/-- R99. -/
def execIgnored4 (s : State) : Host.Outcome State Fault Refusal := noEffect s

/-- R100. -/
def execIgnored6 (s : State) : Host.Outcome State Fault Refusal := noEffect s

/-- R101. -/
def execIgnored7 (s : State) : Host.Outcome State Fault Refusal := noEffect s

/-- R102. -/
def execIgnored8 (s : State) : Host.Outcome State Fault Refusal := noEffect s

/-- R103. -/
def execIgnored10 (s : State) : Host.Outcome State Fault Refusal := noEffect s

/-- R104. -/
def execIgnored11 (s : State) : Host.Outcome State Fault Refusal := noEffect s

/-- R105. -/
def execIgnored12 (s : State) : Host.Outcome State Fault Refusal := noEffect s

/-- R106. -/
def execIgnored13 (s : State) : Host.Outcome State Fault Refusal := noEffect s

/-- R107. -/
def execIgnored14 (s : State) : Host.Outcome State Fault Refusal := noEffect s

end Sys2Proof.Machine
end

