-- ==== Sys2Proof/Machine/Load.lean ====
section
/-!
DEFINITION. LD (43_load.md), the one data-memory instruction.
-/
namespace Sys2Proof.Machine

/-- R93: the error is raised before any write, so DR and `cc` keep their values and the step's `ir` and `pc` stand
(R109). -/
def execLd (dr : RegIdx) (off9 : BitVec 9) (s : State) : Host.Outcome State Fault Refusal :=
  match memRead s.mem .oorLd (loadAddress s.pc off9) with
  | .error e => .next (s.raiseInRun e)
  | .ok v => .next (s.writeResult dr v)

end Sys2Proof.Machine
end

