-- ==== Sys2Proof/Machine/Operate.lean ====
section
/-!
DEFINITION. ADD, AND and NOT (42_operate.md). Each reads its sources before it writes its destination (R73), derives `cc`
from the value it writes (R22) and raises nothing.
-/
namespace Sys2Proof.Machine

/-- R88. -/
def execAddReg (dr sr1 sr2 : RegIdx) (s : State) : Host.Outcome State Fault Refusal :=
  .next (s.writeResult dr (addWords (s.getReg sr1) (s.getReg sr2)))

/-- R89. -/
def execAddImm (dr sr1 : RegIdx) (imm5 : BitVec 5) (s : State) : Host.Outcome State Fault Refusal :=
  .next (s.writeResult dr (addWords (s.getReg sr1) (sext16 imm5)))

/-- R90. -/
def execAndReg (dr sr1 sr2 : RegIdx) (s : State) : Host.Outcome State Fault Refusal :=
  .next (s.writeResult dr (andWords (s.getReg sr1) (s.getReg sr2)))

/-- R91: the immediate is first made a 16-bit vector. -/
def execAndImm (dr sr1 : RegIdx) (imm5 : BitVec 5) (s : State) : Host.Outcome State Fault Refusal :=
  .next (s.writeResult dr (andWords (s.getReg sr1) (sext16 imm5)))

/-- R92. -/
def execNot (dr sr : RegIdx) (s : State) : Host.Outcome State Fault Refusal :=
  .next (s.writeResult dr (invert (s.getReg sr)))

end Sys2Proof.Machine
end

