-- ==== Sys2Proof/Machine/Trap.lean ====
section
/-!
DEFINITION. TRAP (44_trap.md): not a control transfer. It writes no general register, no `cc` and no `pc` (R94).
-/
namespace Sys2Proof.Machine

/-- R95. -/
def execTrapHalt (s : State) : Host.Outcome State Fault Refusal := .next s.haltRun

/-- R96: `Output(x[0][7:0])`. -/
def execTrapOut (s : State) : Host.Outcome State Fault Refusal := .next (s.pushOutput (lowByte (s.getReg 0)))

/-- R97. -/
def execTrapNop (s : State) : Host.Outcome State Fault Refusal := noEffect s

end Sys2Proof.Machine
end

