-- ==== Sys2Proof/Machine/Dispatch.lean ====
section
/-!
DEFINITION. The execute phase (40_engine.md R72): one arm per instruction. No meaning is given an ignored bit (R64).
-/
namespace Sys2Proof.Machine

def exec (i : Instr) (s : State) : Host.Outcome State Fault Refusal :=
  match i with
  | .br nzp off9 => Sys2Proof.Machine.execBr nzp off9 s
  | .addReg dr sr1 _ sr2 => Sys2Proof.Machine.execAddReg dr sr1 sr2 s
  | .addImm dr sr1 imm5 => Sys2Proof.Machine.execAddImm dr sr1 imm5 s
  | .ld dr off9 => Sys2Proof.Machine.execLd dr off9 s
  | .andReg dr sr1 _ sr2 => Sys2Proof.Machine.execAndReg dr sr1 sr2 s
  | .andImm dr sr1 imm5 => Sys2Proof.Machine.execAndImm dr sr1 imm5 s
  | .notReg dr sr _ => Sys2Proof.Machine.execNot dr sr s
  | .trapHalt _ => Sys2Proof.Machine.execTrapHalt s
  | .trapOut _ => Sys2Proof.Machine.execTrapOut s
  | .trapNop _ _ => Sys2Proof.Machine.execTrapNop s
  | .ignored3 _ => Sys2Proof.Machine.execIgnored3 s
  | .ignored4 _ => Sys2Proof.Machine.execIgnored4 s
  | .ignored6 _ => Sys2Proof.Machine.execIgnored6 s
  | .ignored7 _ => Sys2Proof.Machine.execIgnored7 s
  | .ignored8 _ => Sys2Proof.Machine.execIgnored8 s
  | .ignored10 _ => Sys2Proof.Machine.execIgnored10 s
  | .ignored11 _ => Sys2Proof.Machine.execIgnored11 s
  | .ignored12 _ => Sys2Proof.Machine.execIgnored12 s
  | .ignored13 _ => Sys2Proof.Machine.execIgnored13 s
  | .ignored14 _ => Sys2Proof.Machine.execIgnored14 s

end Sys2Proof.Machine
end

