-- ==== Sys2Proof/Machine/HostCommands.lean ====
section
/-!
DEFINITION. The host's commands (40_engine.md R67, R69, R78 to R85; 70_reset_and_hazards.md R125 to R127). Each is one
indivisible transaction. The step gives one only while no run is in progress (R79).
-/
namespace Sys2Proof.Machine

/-- A command that writes a memory cell: nothing but the cell changes, and an error changes nothing (R80, R81, R111). -/
def hostWrite (cause : Cause) (addr : Int) (v : Word) (s : State) : Host.Outcome State Fault Refusal :=
  match memWrite s.mem cause addr v with
  | .error e => .next (s.pushReply (.error e))
  | .ok m => .next ((s.setMem m).pushReply .done)

/-- R80. -/
def hostLoadWord (addr : Int) (word : Word) (s : State) : Host.Outcome State Fault Refusal :=
  hostWrite .oorHostLoad addr word s

/-- R81. A value without a 16-bit signed form is refused whatever the address (DESIGN CHOICE, safe, log 4). -/
def hostSetMemoryCell (addr value : Int) (s : State) : Host.Outcome State Fault Refusal :=
  match setSigned value with
  | none => .refused (.setMemoryCellValue value)
  | some v => hostWrite .oorHostSet addr v s

/-- R82. -/
def hostGetMemoryCell (addr : Int) (s : State) : Host.Outcome State Fault Refusal :=
  match memRead s.mem .oorHostGet addr with
  | .error e => .next (s.pushReply (.error e))
  | .ok w => .next (s.pushReply (.cell w))

/-- R69, R78: accepted in IDLE and HALTED, refused in FAULTED. It changes the status alone; the steps follow, and the reply
comes with the step that ends the run (R74, R75). In RUNNING no command is given (R79). -/
def hostRun (s : State) : Host.Outcome State Fault Refusal :=
  match s.status with
  | .faulted => .refused .runAfterFault
  | .idle => .next (s.setStatus .running)
  | .running => .next (s.setStatus .running)
  | .halted => .next (s.setStatus .running)

/-- R126, R127: the registers and the memory, nothing else. -/
def hostReset (s : State) : Host.Outcome State Fault Refusal :=
  .next (((s.setRegs powerOnRegs).setMem []).pushReply .done)

/-- The execution of one command. The observations return copies and change no state (R83). -/
def hostExec (c : HostCommand) (s : State) : Host.Outcome State Fault Refusal :=
  match c with
  | .loadWord addr word => hostLoadWord addr word s
  | .setMemoryCell addr value => hostSetMemoryCell addr value s
  | .getMemoryCell addr => hostGetMemoryCell addr s
  | .getRegisters => .next (s.pushReply (.registers s.regs))
  | .getConditionCode => .next (s.pushReply (.conditionCode s.cc))
  | .readPc => .next (s.pushReply (.pc s.pc))
  | .readIr => .next (s.pushReply (.ir s.ir))
  | .readStatus => .next (s.pushReply (.status s.status))
  | .readFaultRecord => .next (s.pushReply (.faultRecord s.faultRecord))
  | .readOutput => .next (s.pushReply (.output s.output))
  | .run => hostRun s
  | .reset => hostReset s

/-- What happens while no run is in progress: the host's next command, or nothing (R122: "every element of state
survives"). -/
def hostStep (s : State) : Host.Outcome State Fault Refusal :=
  match s.hostQueue with
  | [] => .next s
  | c :: rest => hostExec c (s.setHostQueue rest)

/-- The output stream as the host renders it. `OUT_RENDER` is the host's, not the block's, so it is a named argument
(92_eei_decisions.md D8, 93_implementation_defined.md U11; log 6). -/
def State.renderedOutput {α : Type} (outRender : Byte → α) (s : State) : List α := s.output.map outRender

end Sys2Proof.Machine
end

