-- ==== Sys2Proof/Machine/Step.lean ====
section
/-!
DEFINITION. One step of the machine. In a run it is the step of 40_engine.md R68: fetch, increment, decode, execute. With no
run in progress it is the host's next command (log 1).
-/
namespace Sys2Proof.Machine

def step (s : State) : Host.Outcome State Fault Refusal :=
  match s.status with
  | .running =>
    match fetch s with
    | .error e => .next (s.raiseInRun e)
    | .ok t => exec (decode t.ir) t
  | .idle => hostStep s
  | .halted => hostStep s
  | .faulted => hostStep s

/-- `s` with the instruction stored where the next fetch reads, and a run in progress: what the host's `loadWord` and `run`
do (R128). Where `pc` is outside [0, 50) there is no cell to hold it, and `pc` is moved to 0 (log 7). -/
def State.withFetchWord (s : State) (nbits w : Nat) : State :=
  let slot : Word := if uval s.pc < Config.memSize then s.pc else 0
  ((s.setPc slot).setMem (s.mem.write (uval slot) (tableWord nbits w))).setStatus .running

end Sys2Proof.Machine
end

