-- ==== Sys2Proof/Safety.lean ====
section
/-!
DEFINITION. The terms the claims use: the invariant of the machine, and how a run ends (40_engine.md R77).
-/
namespace Sys2Proof.Machine

/-- The four patterns of `cc` that can occur (R24, R25). -/
abbrev ccLegal (c : CondCode) : Prop := c = 0b000#3 ∨ c = 0b100#3 ∨ c = 0b010#3 ∨ c = 0b001#3

/-- A word that halts: opcode 15 and vector 0x25 (R95: match 0xF025, mask 0xF03F). -/
abbrev isHaltWord (w : Word) : Prop := w &&& 0xF03F#16 = 0xF025#16

/-- What R108 lets a run record: the two causes a run can raise, each with its range of addresses. -/
abbrev runErrorInRange (e : OutOfRangeError) : Prop :=
  (e.cause = .oorFetch ∧ 50 ≤ e.addr ∧ e.addr ≤ 65535) ∨
  (e.cause = .oorLd ∧ -255 ≤ e.addr ∧ e.addr ≤ 305 ∧ (e.addr < 0 ∨ 50 ≤ e.addr))

/-- The invariant: it holds at power-on and every step keeps it. -/
structure State.Inv (s : State) : Prop where
  /-- Memory keeps its canonical form. -/
  memWf : s.mem.wf = true
  /-- At most one flag is set (R24). -/
  cc : ccLegal s.cc
  /-- In IDLE no instruction has executed since power-on: only the host has acted (R28). -/
  idle : s.status = .idle → s.regs = powerOnRegs ∧ s.pc = 0 ∧ s.ir = 0 ∧ s.cc = 0 ∧ s.output = []
  /-- The record is written exactly in FAULTED (R30, R110). -/
  record : s.faultRecord.isSome ↔ s.status = .faulted
  /-- What is recorded is an error of a run, in its range (R108). -/
  recordRange : ∀ e, s.faultRecord = some e → runErrorInRange e
  /-- In HALTED `ir` holds a halt word and `pc` the address after it (R71, R95). -/
  halted : s.status = .halted →
    isHaltWord s.ir ∧ 1 ≤ uval s.pc ∧ uval s.pc ≤ 50

/-- `k` steps of the run in progress, or fewer if it ends before: the state is then the one it ended in. -/
def runSteps (k : Nat) (s : State) : State :=
  match k with
  | 0 => s
  | k + 1 =>
    match s.status, step s with
    | .running, .next t => runSteps k t
    | _, _ => s

/-- The run in progress reaches HALTED: a good end (R77). -/
def EndsWell (s : State) : Prop := ∃ k, (runSteps k s).status = .halted

/-- The run in progress reaches FAULTED: never a good end (R77). -/
def EndsInFault (s : State) : Prop := ∃ k, (runSteps k s).status = .faulted

/-- The run in progress never ends (R76, R77). -/
def Hangs (s : State) : Prop := ∀ k, (runSteps k s).status = .running

end Sys2Proof.Machine
end

