-- ==== Sys2Proof/Certificates/Slice0/Obligations.lean ====
section
/-!
DEFINITION. The statements for the provers. "R<n>" is a rule of spec/, "D<n>" an entry of 92_eei_decisions.md (the spec's own
decision, marked so in the docstring of each statement that rests on one), "log <n>" the model's own choice.

Words are taken apart with BitVec's own `extractLsb'` and masks, and results are said with BitVec's own arithmetic, not with
the model's operations, so that each statement says what the spec says in the spec's terms.
-/

namespace Sys2Proof.Claims

open Sys2Proof.Machine

/-- Every general register reads as before. -/
def KeepsRegs (s t : State) : Prop := ∀ q, t.getReg q = s.getReg q

/-- Every cell of memory reads as before. -/
def KeepsCells (s t : State) : Prop := ∀ a, t.mem.read a = s.mem.read a

/-- The run goes on, nothing is recorded, and nothing passes between the block and the host. -/
def KeepsRun (s t : State) : Prop :=
  t.status = s.status ∧ t.faultRecord = s.faultRecord ∧ t.replies = s.replies ∧ t.hostQueue = s.hostQueue

/-- `c` is the condition code of the 16-bit result `r` (R21). -/
def CcFrom (c : CondCode) (r : Word) : Prop :=
  (r.toInt < 0 → c = 0b100#3) ∧ (r.toInt = 0 → c = 0b010#3) ∧ (0 < r.toInt → c = 0b001#3)

/-- The effect and the frame of a result-defining instruction: `dr` holds `r`, every other register is as before, `cc` is
that of `r`, and `pc`, `ir`, every cell, the output and the run are as before. -/
def WritesResult (s t : State) (dr : RegIdx) (r : Word) : Prop :=
  t.getReg dr = r ∧ (∀ q, q ≠ dr → t.getReg q = s.getReg q) ∧ CcFrom t.cc r ∧
  t.pc = s.pc ∧ t.ir = s.ir ∧ KeepsCells s t ∧ t.output = s.output ∧ KeepsRun s t

/-- The destination register of an instruction that defines a result (R13, R22). -/
def dest (i : Instr) : Option RegIdx :=
  match i with
  | .addReg dr _ _ _ => some dr
  | .addImm dr _ _ => some dr
  | .ld dr _ => some dr
  | .andReg dr _ _ _ => some dr
  | .andImm dr _ _ => some dr
  | .notReg dr _ _ => some dr
  | .br _ _ => none
  | .trapHalt _ => none
  | .trapOut _ => none
  | .trapNop _ _ => none
  | .ignored3 _ => none
  | .ignored4 _ => none
  | .ignored6 _ => none
  | .ignored7 _ => none
  | .ignored8 _ => none
  | .ignored10 _ => none
  | .ignored11 _ => none
  | .ignored12 _ => none
  | .ignored13 _ => none
  | .ignored14 _ => none

/-- The registers an instruction reads (R13). -/
def sources (i : Instr) : List RegIdx :=
  match i with
  | .addReg _ sr1 _ sr2 => [sr1, sr2]
  | .addImm _ sr1 _ => [sr1]
  | .andReg _ sr1 _ sr2 => [sr1, sr2]
  | .andImm _ sr1 _ => [sr1]
  | .notReg _ sr _ => [sr]
  | .trapOut _ => [0#3]
  | .ld _ _ => []
  | .br _ _ => []
  | .trapHalt _ => []
  | .trapNop _ _ => []
  | .ignored3 _ => []
  | .ignored4 _ => []
  | .ignored6 _ => []
  | .ignored7 _ => []
  | .ignored8 _ => []
  | .ignored10 _ => []
  | .ignored11 _ => []
  | .ignored12 _ => []
  | .ignored13 _ => []
  | .ignored14 _ => []

/-- The instruction is an LD whose effective address, from the incremented `pc` in `s`, is outside [0, 50) (R93). -/
def LdOutside (i : Instr) (s : State) : Prop :=
  ∃ dr off9, i = .ld dr off9 ∧ ((s.pc.toNat : Int) + off9.toInt < 0 ∨ 50 ≤ (s.pc.toNat : Int) + off9.toInt)

/-- A run is in progress and the next fetch is in range; the fetched word is `w`. -/
def Fetches (s : State) (w : Word) : Prop := s.status = .running ∧ s.pc.toNat < 50 ∧ s.mem.read s.pc.toNat = w

/-- No run is in progress and the host's next command is `c`. -/
def Gives (s : State) (c : HostCommand) (rest : List HostCommand) : Prop :=
  s.status ≠ .running ∧ s.hostQueue = c :: rest

end Sys2Proof.Claims

section Statements

open Sys2Proof Sys2Proof.Machine Sys2Proof.Claims

/-! ## Encoding -/

/-- Decoding an encoded well-formed instruction gives it back, every operand at every value (30_encoding.md R53 to R63). -/
def Obligations.DecodeUndoesEncode : Prop :=
  ∀ i : Instr, i.wf = true → decode (encode i) = i

/-- Every one of the 65,536 words decodes to a well-formed instruction, and encoding that gives the word back
(30_encoding.md R64, which rests on D6; that Instr carries the ignored bits is the model's choice, log 5). -/
def Obligations.EncodeUndoesDecode : Prop :=
  ∀ w : Word, (decode w).wf = true ∧ encode (decode w) = w

/-- Words written out from the spec's encodings, one of each family, decode to what they stand for (the examples of
42_operate.md, 43_load.md, 41_branch.md, 44_trap.md and 45_ignored_opcodes.md). -/
def Obligations.SpecExampleWordsDecode : Prop :=
  decode 0b0001001010000011#16 = .addReg 1 2 0 3 ∧
  decode 0b0001001010100011#16 = .addImm 1 2 3 ∧
  decode 0b0101001010000011#16 = .andReg 1 2 0 3 ∧
  decode 0b1001100101111111#16 = .notReg 4 5 0b111111 ∧
  decode 0b0010001000000100#16 = .ld 1 4 ∧
  decode 0b0000111000000001#16 = .br 0b111 1 ∧
  decode 0b1111000000100101#16 = .trapHalt 0 ∧
  decode 0b1111000000100001#16 = .trapOut 0 ∧
  decode 0b1111000000100000#16 = .trapNop 0 0x20 ∧
  decode 0b1110000000000000#16 = .ignored14 0

/-! ## The step -/

/-- With a run in progress and `pc` in range, a step is the execute phase of the decoded word on the state in which `ir` holds
the word and `pc` is one more, and every word decodes to a well-formed instruction (40_engine.md R68, R70 to R72; that no
word is illegal is R64, with D6). -/
def Obligations.StepRunsTheDecodedInstruction : Prop :=
  ∀ (s : State) (w : Word), Fetches s w →
    (decode w).wf = true ∧ step s = exec (decode w) { s with ir := w, pc := s.pc + 1#16 }

/-- A fetch outside [0, 50) writes nothing and ends the run in FAULTED with OOR_FETCH and the address recorded and returned
(the spec's decisions D2, D9 and D10 in 40_engine.md R70 and 60_exceptions.md R108 to R110). -/
def Obligations.FetchOutOfRangeFaults : Prop :=
  ∀ s : State, s.status = .running → 50 ≤ s.pc.toNat →
    step s = .next { s with
      status := .faulted
      faultRecord := some { cause := .oorFetch, addr := (s.pc.toNat : Int) }
      replies := s.replies ++ [.error { cause := .oorFetch, addr := (s.pc.toNat : Int) }] }

/-- A step of a run always leaves a state, and ends in one of three ways: the run goes on, it halts, or it faults
(40_engine.md R68; no word is illegal, R64 with D6; the fault of a fetch is D2). -/
def Obligations.StepOfARunEndsInOneOfThreeWays : Prop :=
  ∀ s : State, s.status = .running →
    ∃ t, step s = .next t ∧ (t.status = .running ∨ t.status = .halted ∨ t.status = .faulted)

/-- The word placed by `withFetchWord` is what the next step runs (the model's own interface, log 7). -/
def Obligations.WithFetchWordIsRunNext : Prop :=
  ∀ (s : State) (w : Word), s.mem.wf = true →
    step (s.withFetchWord 16 w.toNat) =
      exec (decode w) { s.withFetchWord 16 w.toNat with ir := w, pc := (s.withFetchWord 16 w.toNat).pc + 1#16 }

/-! ## The instructions -/

/-- R88: its words, its result, its condition code and its frame. -/
def Obligations.AddRegisterResultAndFrame : Prop :=
  (∀ w : Word, w &&& 0xF020#16 = 0x1000#16 →
    decode w = .addReg (w.extractLsb' 9 3) (w.extractLsb' 6 3) (w.extractLsb' 3 2) (w.extractLsb' 0 3)) ∧
  ∀ (s : State) (dr sr1 sr2 : RegIdx) (ign : BitVec 2),
    ∃ t, exec (.addReg dr sr1 ign sr2) s = .next t ∧
      WritesResult s t dr (BitVec.ofInt 16 ((s.getReg sr1).toInt + (s.getReg sr2).toInt))

/-- ADD's result is the same sum of the unsigned readings (42_operate.md R88 corner case 5, derived there). -/
def Obligations.AddIsTheUnsignedSumToo : Prop :=
  ∀ (s t : State) (dr sr1 sr2 : RegIdx) (ign : BitVec 2), exec (.addReg dr sr1 ign sr2) s = .next t →
    (t.getReg dr).toNat = ((s.getReg sr1).toNat + (s.getReg sr2).toNat) % 65536

/-- R89: its words, its result, its condition code and its frame. -/
def Obligations.AddImmediateResultAndFrame : Prop :=
  (∀ w : Word, w &&& 0xF020#16 = 0x1020#16 →
    decode w = .addImm (w.extractLsb' 9 3) (w.extractLsb' 6 3) (w.extractLsb' 0 5)) ∧
  ∀ (s : State) (dr sr1 : RegIdx) (imm5 : BitVec 5), -16 ≤ imm5.toInt ∧ imm5.toInt ≤ 15 ∧
    ∃ t, exec (.addImm dr sr1 imm5) s = .next t ∧
      WritesResult s t dr (BitVec.ofInt 16 ((s.getReg sr1).toInt + imm5.toInt))

/-- R90: its words, its result, its condition code and its frame. -/
def Obligations.AndRegisterResultAndFrame : Prop :=
  (∀ w : Word, w &&& 0xF020#16 = 0x5000#16 →
    decode w = .andReg (w.extractLsb' 9 3) (w.extractLsb' 6 3) (w.extractLsb' 3 2) (w.extractLsb' 0 3)) ∧
  ∀ (s : State) (dr sr1 sr2 : RegIdx) (ign : BitVec 2),
    ∃ t, exec (.andReg dr sr1 ign sr2) s = .next t ∧ WritesResult s t dr (s.getReg sr1 &&& s.getReg sr2)

/-- R91: its words, its result, its condition code and its frame. The immediate's 16-bit form is the word whose signed
reading is that of the 5-bit field. -/
def Obligations.AndImmediateResultAndFrame : Prop :=
  (∀ w : Word, w &&& 0xF020#16 = 0x5020#16 →
    decode w = .andImm (w.extractLsb' 9 3) (w.extractLsb' 6 3) (w.extractLsb' 0 5)) ∧
  ∀ (s : State) (dr sr1 : RegIdx) (imm5 : BitVec 5),
    ∃ t, exec (.andImm dr sr1 imm5) s = .next t ∧
      WritesResult s t dr (s.getReg sr1 &&& BitVec.ofInt 16 imm5.toInt)

/-- NOT (42_operate.md R92): its words, its result, its condition code and its frame. That `bits[5:0]` may hold anything is
the spec's decision D6. -/
def Obligations.NotResultAndFrame : Prop :=
  (∀ w : Word, w &&& 0xF000#16 = 0x9000#16 →
    decode w = .notReg (w.extractLsb' 9 3) (w.extractLsb' 6 3) (w.extractLsb' 0 6)) ∧
  ∀ (s : State) (dr sr : RegIdx) (ign : BitVec 6),
    ∃ t, exec (.notReg dr sr ign) s = .next t ∧ WritesResult s t dr (~~~ s.getReg sr) ∧
      (t.getReg dr).toInt = -(s.getReg sr).toInt - 1

/-- LD in range (43_load.md R93): its words, and where it completes. The effective address is a mathematical integer, the
spec's decision D5. -/
def Obligations.LoadInRangeResultAndFrame : Prop :=
  (∀ w : Word, w &&& 0xF000#16 = 0x2000#16 → decode w = .ld (w.extractLsb' 9 3) (w.extractLsb' 0 9)) ∧
  ∀ (s : State) (dr : RegIdx) (off9 : BitVec 9) (ea : Nat),
    (s.pc.toNat : Int) + off9.toInt = (ea : Int) → ea < 50 →
      ∃ t, exec (.ld dr off9) s = .next t ∧ WritesResult s t dr (s.mem.read ea)

/-- LD out of range (43_load.md R93, 60_exceptions.md R108 to R110, which rest on the spec's decisions D5, D9, D10 and D24):
where it raises, what is recorded and returned, and that nothing else is written. -/
def Obligations.LoadOutOfRangeFaults : Prop :=
  ∀ (s : State) (dr : RegIdx) (off9 : BitVec 9) (ea : Int),
    (s.pc.toNat : Int) + off9.toInt = ea → (ea < 0 ∨ 50 ≤ ea) →
      ∃ t, exec (.ld dr off9) s = .next t ∧ t.status = .faulted ∧
        t.faultRecord = some { cause := .oorLd, addr := ea } ∧
        t.replies = s.replies ++ [.error { cause := .oorLd, addr := ea }] ∧
        KeepsRegs s t ∧ t.cc = s.cc ∧ t.pc = s.pc ∧ t.ir = s.ir ∧ KeepsCells s t ∧ t.output = s.output ∧
        t.hostQueue = s.hostQueue

/-- With `pc` at most 50, as in every LD of a run, checking the effective address wrapped to 16 bits gives the verdict the
integer check gives (43_load.md R93, derived there; D5). -/
def Obligations.WrappedLoadCheckAgrees : Prop :=
  ∀ (pc : Word) (off9 : BitVec 9), pc.toNat ≤ 50 →
    (addressExists (loadAddress pc off9) ↔ (wrap16 (loadAddress pc off9)).toNat < 50)

/-- BR (41_branch.md R86): its words, when it is taken (the spec's decision D4), its target modulo 2^16 (D3) and its
frame. -/
def Obligations.BranchEffectAndFrame : Prop :=
  (∀ w : Word, w &&& 0xF000#16 = 0x0000#16 → decode w = .br (w.extractLsb' 9 3) (w.extractLsb' 0 9)) ∧
  ∀ (s : State) (nzp : BitVec 3) (off9 : BitVec 9),
    ∃ t, exec (.br nzp off9) s = .next t ∧
      ((∃ k, k < 3 ∧ nzp.getLsbD k = true ∧ s.cc.getLsbD k = true) →
        t.pc = BitVec.ofInt 16 ((s.pc.toNat : Int) + off9.toInt)) ∧
      ((∀ k, k < 3 → ¬ (nzp.getLsbD k = true ∧ s.cc.getLsbD k = true)) → t.pc = s.pc) ∧
      KeepsRegs s t ∧ t.cc = s.cc ∧ t.ir = s.ir ∧ KeepsCells s t ∧ t.output = s.output ∧ KeepsRun s t

/-- R87: a BR at address `a` with a requested bit set in `cc` goes to `a + 1 + offset`, a number in [a - 255, a + 256]; where
that number is an address a 16-bit `pc` can hold, `pc` holds it. -/
def Obligations.BranchOffsetIsFromTheIncrementedPc : Prop :=
  ∀ (s : State) (w : Word) (k : Nat), Fetches s w → w &&& 0xF000#16 = 0x0000#16 →
    k < 3 → w.getLsbD (9 + k) = true → s.cc.getLsbD k = true →
      (s.pc.toNat : Int) - 255 ≤ s.pc.toNat + 1 + (w.extractLsb' 0 9).toInt ∧
      (s.pc.toNat : Int) + 1 + (w.extractLsb' 0 9).toInt ≤ s.pc.toNat + 256 ∧
      ∃ t, step s = .next t ∧
        (0 ≤ (s.pc.toNat : Int) + 1 + (w.extractLsb' 0 9).toInt →
          (t.pc.toNat : Int) = s.pc.toNat + 1 + (w.extractLsb' 0 9).toInt)

/-- Every BR word of offset -1 whose nzp meets `cc` loops for ever: taken, it makes `pc` its own address and leaves `cc`.
With nzp = 111 that is so as soon as `cc` is set (41_branch.md R86 corner case 5 and 40_engine.md R76; "taken" is D4). -/
def Obligations.BranchToItselfHangs : Prop :=
  (∀ (s : State) (w : Word), Fetches s w → w &&& 0xF1FF#16 = 0x01FF#16 → w.extractLsb' 9 3 &&& s.cc ≠ 0b000#3 →
    (∃ t, step s = .next t ∧ t.pc = s.pc ∧ t.cc = s.cc) ∧ Hangs s) ∧
  ∀ s : State, Fetches s 0x0FFF#16 → s.cc ≠ 0b000#3 → Hangs s

/-- R95: the words that halt, the effect and the frame, where a halting step leaves `pc` and `ir`, and that a later run goes on
from there. -/
def Obligations.HaltEffectAndFrame : Prop :=
  (∀ w : Word, w &&& 0xF03F#16 = 0xF025#16 → decode w = .trapHalt (w.extractLsb' 6 6)) ∧
  (∀ (s : State) (ign : BitVec 6), ∃ t, exec (.trapHalt ign) s = .next t ∧ t.status = .halted ∧
    t.replies = s.replies ++ [.runReturned] ∧ KeepsRegs s t ∧ t.cc = s.cc ∧ t.pc = s.pc ∧ t.ir = s.ir ∧
    KeepsCells s t ∧ t.output = s.output ∧ t.faultRecord = s.faultRecord ∧ t.hostQueue = s.hostQueue) ∧
  (∀ (s : State) (w : Word), Fetches s w → w &&& 0xF03F#16 = 0xF025#16 →
    ∃ t, step s = .next t ∧ t.status = .halted ∧ t.pc.toNat = s.pc.toNat + 1 ∧ t.ir = w) ∧
  (∀ (s : State) (rest : List HostCommand), s.status = .halted → s.hostQueue = .run :: rest →
    step s = .next { s with status := .running, hostQueue := rest })

/-- R96: the words that print, the effect and the frame. -/
def Obligations.OutEffectAndFrame : Prop :=
  (∀ w : Word, w &&& 0xF03F#16 = 0xF021#16 → decode w = .trapOut (w.extractLsb' 6 6)) ∧
  ∀ (s : State) (ign : BitVec 6), ∃ t, exec (.trapOut ign) s = .next t ∧
    t.output = s.output ++ [BitVec.ofNat 8 (s.getReg 0).toNat] ∧ KeepsRegs s t ∧ t.cc = s.cc ∧ t.pc = s.pc ∧
    t.ir = s.ir ∧ KeepsCells s t ∧ KeepsRun s t

/-- R97: the words, and that they do nothing beyond the step's fetch and increment. -/
def Obligations.OtherTrapVectorsDoNothing : Prop :=
  (∀ w : Word, w &&& 0xF000#16 = 0xF000#16 → w.extractLsb' 0 6 ≠ 0x25#6 → w.extractLsb' 0 6 ≠ 0x21#6 →
    decode w = .trapNop (w.extractLsb' 6 6) (w.extractLsb' 0 6)) ∧
  (∀ (s : State) (ign vec : BitVec 6), exec (.trapNop ign vec) s = .next s) ∧
  ∀ (s : State) (w : Word), Fetches s w → w &&& 0xF000#16 = 0xF000#16 → w.extractLsb' 0 6 ≠ 0x25#6 →
    w.extractLsb' 0 6 ≠ 0x21#6 → step s = .next { s with ir := w, pc := s.pc + 1#16 }

/-- R98 to R107: each ignored opcode decodes whatever `bits[11:0]` holds, its execute phase does nothing, and the step's
fetch and increment are its only effect. -/
def Obligations.IgnoredOpcodesDoNothing : Prop :=
  (∀ w : Word,
    (w &&& 0xF000#16 = 0x3000#16 → decode w = .ignored3 (w.extractLsb' 0 12)) ∧
    (w &&& 0xF000#16 = 0x4000#16 → decode w = .ignored4 (w.extractLsb' 0 12)) ∧
    (w &&& 0xF000#16 = 0x6000#16 → decode w = .ignored6 (w.extractLsb' 0 12)) ∧
    (w &&& 0xF000#16 = 0x7000#16 → decode w = .ignored7 (w.extractLsb' 0 12)) ∧
    (w &&& 0xF000#16 = 0x8000#16 → decode w = .ignored8 (w.extractLsb' 0 12)) ∧
    (w &&& 0xF000#16 = 0xA000#16 → decode w = .ignored10 (w.extractLsb' 0 12)) ∧
    (w &&& 0xF000#16 = 0xB000#16 → decode w = .ignored11 (w.extractLsb' 0 12)) ∧
    (w &&& 0xF000#16 = 0xC000#16 → decode w = .ignored12 (w.extractLsb' 0 12)) ∧
    (w &&& 0xF000#16 = 0xD000#16 → decode w = .ignored13 (w.extractLsb' 0 12)) ∧
    (w &&& 0xF000#16 = 0xE000#16 → decode w = .ignored14 (w.extractLsb' 0 12))) ∧
  (∀ (s : State) (ign : BitVec 12),
    exec (.ignored3 ign) s = .next s ∧ exec (.ignored4 ign) s = .next s ∧ exec (.ignored6 ign) s = .next s ∧
    exec (.ignored7 ign) s = .next s ∧ exec (.ignored8 ign) s = .next s ∧ exec (.ignored10 ign) s = .next s ∧
    exec (.ignored11 ign) s = .next s ∧ exec (.ignored12 ign) s = .next s ∧ exec (.ignored13 ign) s = .next s ∧
    exec (.ignored14 ign) s = .next s) ∧
  ∀ (s : State) (w : Word), Fetches s w →
    w.extractLsb' 12 4 ∈ [3#4, 4#4, 6#4, 7#4, 8#4, 10#4, 11#4, 12#4, 13#4, 14#4] →
    step s = .next { s with ir := w, pc := s.pc + 1#16 }

/-! ## The condition code -/

/-- R21: the condition code of a result, and that exactly one digit is set. -/
def Obligations.ConditionCodeOfAResult : Prop :=
  ∀ r : Word, CcFrom (setcc r) r ∧ (setcc r = 0b100#3 ∨ setcc r = 0b010#3 ∨ setcc r = 0b001#3)

/-- The condition code as logic on the bits of the result (10_state.md R21, derived there). -/
def Obligations.ConditionCodeAsLogic : Prop :=
  ∀ r : Word,
    flagN (setcc r) = r.getLsbD 15 ∧
    (flagZ (setcc r) = true ↔ ∀ k, k < 16 → r.getLsbD k = false) ∧
    (flagP (setcc r) = true ↔ r.getLsbD 15 = false ∧ ∃ k, k < 15 ∧ r.getLsbD k = true)

/-- R22: ADD, AND, NOT and a completed LD leave in `cc` the condition code of the value in their destination register; every
other instruction, an LD that raises, and every host command leave `cc` as it was. -/
def Obligations.OnlyResultInstructionsWriteCc : Prop :=
  (∀ (i : Instr) (s t : State), exec i s = .next t →
    (∀ dr, dest i = some dr → ¬ LdOutside i s → CcFrom t.cc (t.getReg dr)) ∧
    (dest i = none ∨ LdOutside i s → t.cc = s.cc)) ∧
  ∀ s t : State, s.status ≠ .running → step s = .next t → t.cc = s.cc

/-! ## Who writes and who reads what -/

/-- Only an instruction's destination register changes, and of the host's commands only reset writes registers
(10_state.md R13, which cites D7 for TRAP). -/
def Obligations.OnlyTheDestinationRegisterChanges : Prop :=
  (∀ (i : Instr) (s t : State) (q : RegIdx), exec i s = .next t → dest i ≠ some q → t.getReg q = s.getReg q) ∧
  ∀ (s t : State), s.status ≠ .running → step s = .next t →
    KeepsRegs s t ∨ ∃ rest, s.hostQueue = .reset :: rest

/-- A register that an instruction does not read has no influence on it: with any value in it, the instruction does the same
and leaves that value there, unless it is its destination (10_state.md R13, which cites D7 for TRAP). -/
def Obligations.UnreadRegistersHaveNoInfluence : Prop :=
  ∀ (i : Instr) (s t : State) (q : RegIdx) (v : Word), q ∉ sources i → exec i s = .next t →
    exec i (s.setReg q v) = .next (t.setReg q v) ∨
    (dest i = some q ∧ exec i (s.setReg q v) = .next t)

/-- `pc` is written by the increment of a completed fetch and by a taken BR, and by nothing else (10_state.md R16, which rests
on D2). -/
def Obligations.OnlyIncrementAndBranchWritePc : Prop :=
  ∀ s t : State, step s = .next t →
    (∀ w, Fetches s w → t.pc = s.pc + 1#16 ∨
      (w &&& 0xF000#16 = 0x0000#16 ∧ w.extractLsb' 9 3 &&& s.cc ≠ 0b000#3 ∧
        t.pc = BitVec.ofInt 16 ((s.pc.toNat : Int) + 1 + (w.extractLsb' 0 9).toInt))) ∧
    ((s.status ≠ .running ∨ 50 ≤ s.pc.toNat) → t.pc = s.pc)

/-- `ir` is written by a completed fetch, with the word fetched, and by nothing else (10_state.md R18; which fetches complete
is D2). -/
def Obligations.OnlyTheFetchWritesIr : Prop :=
  ∀ s t : State, step s = .next t →
    (∀ w, Fetches s w → t.ir = w) ∧ ((s.status ≠ .running ∨ 50 ≤ s.pc.toNat) → t.ir = s.ir)

/-- A cell that a step changes was written by the host's loadWord or setMemoryCell at that address, or by its reset: no
instruction writes memory (20_memory.md R39, R41, derived there). -/
def Obligations.OnlyTheHostWritesMemory : Prop :=
  ∀ (s t : State) (a : Nat), s.mem.wf = true → step s = .next t → t.mem.read a ≠ s.mem.read a →
    s.status ≠ .running ∧ ∃ c rest, s.hostQueue = c :: rest ∧
      ((∃ w, c = .loadWord a w) ∨ (∃ n, c = .setMemoryCell a n) ∨ c = .reset)

/-- The output stream only grows, by one character at a time, and only TRAP x21 writes it (10_state.md R29, whose form is the
spec's decision D23; 60_exceptions.md R119). -/
def Obligations.OnlyOutAppendsToTheStream : Prop :=
  ∀ s t : State, step s = .next t →
    t.output = s.output ∨
    ∃ w, Fetches s w ∧ w &&& 0xF03F#16 = 0xF021#16 ∧ t.output = s.output ++ [BitVec.ofNat 8 (s.getReg 0).toNat]

/-- A run cannot read back its output, nor what passes between the block and the host: with any other contents there, a step of
the run leaves the same registers, pc, ir, cc, memory, status and fault record (60_exceptions.md R119, R120; the two host
fields are the model's, log 1). -/
def Obligations.ARunCannotReadItsOutput : Prop :=
  ∀ (s t : State) (l : List Byte) (q : List HostCommand) (r : List HostReply), s.status = .running →
    step s = .next t →
    ∃ t', step { s with output := l, hostQueue := q, replies := r } = .next t' ∧
      t'.regs = t.regs ∧ t'.pc = t.pc ∧ t'.ir = t.ir ∧ t'.cc = t.cc ∧ t'.mem = t.mem ∧ t'.status = t.status ∧
      t'.faultRecord = t.faultRecord

/-! ## How a run starts and ends -/

/-- The run command in IDLE or HALTED starts a run from the state as it is (40_engine.md R69 and R78, derived there). -/
def Obligations.RunStartsFromTheStateAsItIs : Prop :=
  ∀ (s : State) (rest : List HostCommand), s.status = .idle ∨ s.status = .halted → s.hostQueue = .run :: rest →
    step s = .next { s with status := .running, hostQueue := rest }

/-- The first run after power-on fetches its first instruction from address 0 (70_reset_and_hazards.md R124, derived
there). -/
def Obligations.FirstRunFetchesAddressZero : Prop :=
  ∀ (s : State) (rest : List HostCommand), s.Inv → s.status = .idle → s.hostQueue = .run :: rest →
    ∃ t, step s = .next t ∧ step t = exec (decode (s.mem.read 0)) { t with ir := s.mem.read 0, pc := 1#16 }

/-- R74: a step of a run ends it normally exactly when the word fetched is a TRAP with vector 0x25, and then `run` returns with
no error; otherwise the run goes on or ends in a fault. -/
def Obligations.HaltIsTheOnlyNormalEnd : Prop :=
  ∀ s t : State, s.status = .running → step s = .next t →
    (t.status = .halted ↔ ∃ w, Fetches s w ∧ w &&& 0xF03F#16 = 0xF025#16) ∧
    (t.status = .halted → t.replies = s.replies ++ [.runReturned]) ∧
    (t.status ≠ .halted → t.status = .running ∨ t.status = .faulted)

/-- A step of a run ends it in FAULTED exactly when the fetch or an LD is out of range, and then the error is recorded and
returned (40_engine.md R75, 60_exceptions.md R108 to R110, with the spec's decisions D2, D5, D10 and D24). -/
def Obligations.OnlyRangeErrorsFaultARun : Prop :=
  ∀ s t : State, s.status = .running → step s = .next t →
    (t.status = .faulted ↔
      50 ≤ s.pc.toNat ∨ ∃ w, Fetches s w ∧ LdOutside (decode w) { s with ir := w, pc := s.pc + 1#16 }) ∧
    (t.status = .faulted → ∃ e, t.faultRecord = some e ∧ t.replies = s.replies ++ [.error e])

/-- FAULTED is sticky: no command clears it or the record, and run is refused. Every other command is accepted (setMemoryCell
for a value in its range) and does what it does in IDLE; readStatus alone answers otherwise, since what it reads is the status
(60_exceptions.md R110, 40_engine.md R69, the spec's decisions D10, D14 and D18). -/
def Obligations.FaultedIsSticky : Prop :=
  ∀ s : State, s.status = .faulted →
    (∀ t, step s = .next t → t.status = .faulted ∧ t.faultRecord = s.faultRecord) ∧
    (∀ rest, s.hostQueue = .run :: rest → step s = .refused .runAfterFault) ∧
    (∀ c rest, s.hostQueue = c :: rest → c ≠ .run →
      (∀ addr v, c = .setMemoryCell addr v → -32768 ≤ v ∧ v ≤ 32767) → ∃ t, step s = .next t) ∧
    (∀ c rest t, s.hostQueue = c :: rest → c ≠ .run → c ≠ .readStatus →
      step { s with status := .idle } = .next t → step s = .next { t with status := .faulted }) ∧
    (∀ rest, s.hostQueue = .readStatus :: rest →
      step s = .next { s with hostQueue := rest, replies := s.replies ++ [.status .faulted] })

/-- Only the host's run leaves HALTED, and with no command given every element of state stays as it is (60_exceptions.md R122;
that the block waits for the next command of a list is the model's form, log 1). -/
def Obligations.OnlyRunLeavesHalted : Prop :=
  ∀ s : State, s.status = .halted →
    (s.hostQueue = [] → step s = .next s) ∧
    ∀ t, step s = .next t → t.status ≠ .halted → ∃ rest, s.hostQueue = .run :: rest

/-- A run ends well, ends in a fault, or never ends, and no two of these (40_engine.md R77, derived there). -/
def Obligations.EveryRunHasExactlyOneEnd : Prop :=
  ∀ s : State, s.status = .running →
    (EndsWell s ∨ EndsInFault s ∨ Hangs s) ∧
    ¬ (EndsWell s ∧ EndsInFault s) ∧ ¬ (EndsWell s ∧ Hangs s) ∧ ¬ (EndsInFault s ∧ Hangs s)

/-- However many steps a run takes, memory is what it was when the run began, no host command is taken, and the output so far
is kept (20_memory.md R47, derived there; 40_engine.md R79, with D12). -/
def Obligations.ARunKeepsMemoryAndHost : Prop :=
  ∀ (s : State) (k : Nat), s.status = .running →
    (runSteps k s).mem = s.mem ∧ (runSteps k s).hostQueue = s.hostQueue ∧ s.output <+: (runSteps k s).output

/-! ## Power-on and the host's commands -/

/-- R12, R17, R126: the registers, `pc` and the 50 cells at power-on (R27), and what the reset command makes of them. -/
def Obligations.PowerOnAndResetValues : Prop :=
  (∀ q : RegIdx, State.reset.getReg q = q.setWidth 16) ∧ State.reset.pc = 0x0000#16 ∧
  (∀ a, a < 50 → State.reset.mem.read a = 0x0000#16) ∧
  ∀ (s : State) (rest : List HostCommand), Gives s .reset rest →
    ∃ t, step s = .next t ∧ (∀ q : RegIdx, t.getReg q = q.setWidth 16) ∧
      (∀ a, a < 50 → t.mem.read a = 0x0000#16) ∧ t.pc = s.pc

/-- At power-on `ir` is 0 and `cc` is 000, no run has started, nothing has been output or recorded (70_reset_and_hazards.md
R123; the last three are the spec's decisions D22 to D24), and the model's own two lists are empty (log 1). -/
def Obligations.PowerOnRunState : Prop :=
  State.reset.ir = 0x0000#16 ∧ State.reset.cc = 0b000#3 ∧ State.reset.status = .idle ∧ State.reset.output = [] ∧
  State.reset.faultRecord = none ∧ State.reset.hostQueue = [] ∧ State.reset.replies = []

/-- The reset command does not change `pc`, `ir` or `cc`, nor the status, the output or the fault record
(70_reset_and_hazards.md R127; the last three are the spec's decision D14). -/
def Obligations.ResetCommandLeavesTheRest : Prop :=
  ∀ (s : State) (rest : List HostCommand), Gives s .reset rest →
    ∃ t, step s = .next t ∧ t.pc = s.pc ∧ t.ir = s.ir ∧ t.cc = s.cc ∧ t.status = s.status ∧ t.output = s.output ∧
      t.faultRecord = s.faultRecord ∧ t.replies = s.replies ++ [.done] ∧ t.hostQueue = rest

/-- R80: loadWord at an address in [0, 50) replaces that cell and nothing else; at any other address it raises and changes
nothing. The premise is the memory's canonical form, which every step keeps. -/
def Obligations.LoadWordReplacesOneCell : Prop :=
  ∀ (s : State) (addr : Int) (w : Word) (rest : List HostCommand), s.mem.wf = true → Gives s (.loadWord addr w) rest →
    (∀ a : Nat, addr = a → a < 50 →
      ∃ t, step s = .next t ∧ t.mem.read a = w ∧ (∀ b, b ≠ a → t.mem.read b = s.mem.read b) ∧
        t = { s with mem := t.mem, hostQueue := rest, replies := s.replies ++ [.done] }) ∧
    ((addr < 0 ∨ 50 ≤ addr) →
      step s = .next { s with
        hostQueue := rest
        replies := s.replies ++ [.error { cause := .oorHostLoad, addr := addr }] })

/-- setMemoryCell stores the word whose signed reading is the value, at an address in [0, 50); at any other address it raises
and changes nothing; a value with no 16-bit signed form is refused (40_engine.md R81 with the spec's decision D18; refused
whatever the address is the model's choice, log 4). -/
def Obligations.SetMemoryCellStoresTheSignedValue : Prop :=
  ∀ (s : State) (addr value : Int) (rest : List HostCommand), s.mem.wf = true →
    Gives s (.setMemoryCell addr value) rest →
    ((-32768 ≤ value ∧ value ≤ 32767) →
      (∀ a : Nat, addr = a → a < 50 →
        ∃ t, step s = .next t ∧ (t.mem.read a).toInt = value ∧ (∀ b, b ≠ a → t.mem.read b = s.mem.read b) ∧
          t = { s with mem := t.mem, hostQueue := rest, replies := s.replies ++ [.done] }) ∧
      ((addr < 0 ∨ 50 ≤ addr) →
        step s = .next { s with
          hostQueue := rest
          replies := s.replies ++ [.error { cause := .oorHostSet, addr := addr }] })) ∧
    (¬ (-32768 ≤ value ∧ value ≤ 32767) → step s = .refused (.setMemoryCellValue value))

/-- getMemoryCell returns the cell, or raises outside [0, 50), and the other observations return what they name; none changes
anything (40_engine.md R82 and R83, with the spec's decisions D11 and D13). -/
def Obligations.ObservationsChangeNothing : Prop :=
  ∀ (s : State) (rest : List HostCommand),
    (∀ addr : Nat, Gives s (.getMemoryCell addr) rest → addr < 50 →
      step s = .next { s with hostQueue := rest, replies := s.replies ++ [.cell (s.mem.read addr)] }) ∧
    (∀ addr : Int, Gives s (.getMemoryCell addr) rest → (addr < 0 ∨ 50 ≤ addr) →
      step s = .next { s with
        hostQueue := rest
        replies := s.replies ++ [.error { cause := .oorHostGet, addr := addr }] }) ∧
    (∀ c r, (c, r) ∈ [(HostCommand.getRegisters, HostReply.registers s.regs), (.getConditionCode, .conditionCode s.cc),
        (.readPc, .pc s.pc), (.readIr, .ir s.ir), (.readStatus, .status s.status),
        (.readFaultRecord, .faultRecord s.faultRecord), (.readOutput, .output s.output)] →
      Gives s c rest → step s = .next { s with hostQueue := rest, replies := s.replies ++ [r] })

/-! ## The bit-vector datapath and memory -/

/-- R8: the unsigned and the signed reading of a bit vector of any width, and their ranges. -/
def Obligations.ReadingsOfABitVector : Prop :=
  ∀ (n : Nat) (v : BitVec n), 0 < n →
    (uval v : Int) = ((List.range n).map fun k => if v.getLsbD k then (2 : Int) ^ k else 0).sum ∧
    (uval v : Int) ≤ 2 ^ n - 1 ∧
    sval v = uval v - (if v.getLsbD (n - 1) then (2 : Int) ^ n else 0) ∧
    -2 ^ (n - 1) ≤ sval v ∧ sval v ≤ 2 ^ (n - 1) - 1

/-- R32: a slice holds the source digits from `start` on, in the document's numbering, its most significant digit first; its
signed reading is at its own width. -/
def Obligations.SliceTakesTheDocumentsDigits : Prop :=
  ∀ (v : Word) (start width : Nat), start + width ≤ 16 →
    ∃ f, docSlice start width v = some f ∧ (∀ d, d < width → f.getMsbD d = v.getMsbD (start + d)) ∧
      f = v.extractLsb' (16 - start - width) width ∧
      sval f = uval f - (if f.getLsbD (width - 1) then (2 : Int) ^ width else 0)

/-- R35 and R36: inversion flips every digit and undoes itself; increment adds 1 modulo 2^16. -/
def Obligations.InvertAndIncrement : Prop :=
  ∀ v : Word, (∀ k, k < 16 → (invert v).getLsbD k = !v.getLsbD k) ∧ invert (invert v) = v ∧
    uval (incrementByOne v) = (uval v + 1) % 65536 ∧ incrementByOne 0xFFFF#16 = 0x0000#16

/-- R37: a 16-bit sum is taken modulo 2^16, and its signed reading is the one value in [-32768, 32767] congruent to the exact
sum. -/
def Obligations.SumsWrapModuloTwoToTheSixteen : Prop :=
  (∀ a b : Int, (uval (wrap16 (a + b)) : Int) = (a + b) % 65536 ∧
    ∀ n : Int, (-32768 ≤ n ∧ n ≤ 32767 ∧ n % 65536 = (a + b) % 65536) ↔ n = sval (wrap16 (a + b))) ∧
  ∀ x y : Word, addWords x y = wrap16 (sval x + sval y)

/-- R38: signed assignment followed by the signed reading is the identity on [-32768, 32767]; writing a word's raw digits gives
the word; and AND composes its result digit by digit. -/
def Obligations.AssignmentsRoundTrip : Prop :=
  (∀ n : Int, -32768 ≤ n → n ≤ 32767 → ∃ v, setSigned n = some v ∧ sval v = n) ∧
  (∀ v : Word, setRawDigits (rawDigits v) = v) ∧
  (∀ ds : Vector Bool 16, rawDigits (setRawDigits ds) = ds) ∧
  ∀ (a b : Word) (d : Fin 16), (rawDigits (andWords a b))[d] = ((rawDigits a)[d] && (rawDigits b)[d])

/-- The read primitive (20_memory.md R40) returns the cell at an address that exists, and raises with the caller's cause and the address at
any other. -/
def Obligations.MemReadChecksTheRange : Prop :=
  ∀ (m : Memory) (c : Cause) (addr : Int),
    (∀ a : Nat, addr = a → a < 50 → memRead m c addr = .ok (m.read a)) ∧
    ((addr < 0 ∨ 50 ≤ addr) → memRead m c addr = .error { cause := c, addr := addr })

/-! ## The invariant -/

/-- The invariant holds at power-on. -/
def Obligations.InvariantHoldsAtPowerOn : Prop := State.reset.Inv

/-- Every step keeps the invariant: memory's canonical form, one flag at most (10_state.md R24, derived there), IDLE only before
the first run, the fault record exactly in FAULTED and in the ranges of 60_exceptions.md R108, and in HALTED a halt word in `ir`
(R28, R30, R110, with the spec's decisions D2, D10, D22 and D24). -/
def Obligations.EveryStepKeepsTheInvariant : Prop :=
  ∀ s t : State, s.Inv → step s = .next t → t.Inv

end Statements
end

