-- ==== Sys2Proof/Laws/Decode.lean ====
section
/-!
SUPPORT. `field` and `place` undo each other, and what the decoder answers for each opcode of R63, mode bit and vector.
-/
namespace Sys2Proof

theorem getLsbD_field (lo len : Nat) (w : Word) (i : Nat) :
    (field lo len w).getLsbD i = (decide (i < len) && w.getLsbD (lo + i)) := by
  simp [field]

theorem getLsbD_place {len : Nat} (lo : Nat) (f : BitVec len) (i : Nat) :
    (place lo f).getLsbD i = (decide (i < 16) && decide (lo ≤ i) && f.getLsbD (i - lo)) := by
  simp only [place, BitVec.getLsbD_shiftLeft, BitVec.getLsbD_setWidth]
  by_cases h : i < 16 <;> by_cases h2 : i < lo
  · simp [h2, show ¬ lo ≤ i by omega]
  · simp [h, h2, show lo ≤ i by omega, show i - lo < 16 by omega]
  · simp [h]
  · simp [h]

theorem field_or (lo len : Nat) (a b : Word) : field lo len (a ||| b) = field lo len a ||| field lo len b := by
  simp [field, BitVec.extractLsb'_or]

theorem field_place_same {len : Nat} (lo : Nat) (f : BitVec len) (h : lo + len ≤ 16) :
    field lo len (place lo f) = f := by
  apply BitVec.eq_of_getLsbD_eq
  intro i hi
  simp only [getLsbD_field, getLsbD_place]
  simp [hi, show lo + i < 16 by omega, show lo + i - lo = i by omega]

theorem field_place_disjoint {len : Nat} (lo lo' len' : Nat) (f : BitVec len)
    (h : lo + len ≤ lo' ∨ lo' + len' ≤ lo) : field lo' len' (place lo f) = 0#len' := by
  apply BitVec.eq_of_getLsbD_eq
  intro i hi
  simp only [getLsbD_field, getLsbD_place, BitVec.getLsbD_zero]
  rcases h with h | h
  · simp [BitVec.getLsbD_of_ge f (lo' + i - lo) (by omega)]
  · simp [show ¬ lo ≤ lo' + i by omega]

section
variable {w : Word}

theorem decode_br (h : field 12 4 w = 0#4) : decode w = .br (field 9 3 w) (field 0 9 w) := by
  simp [decode, h]

theorem decode_addReg (h : field 12 4 w = 1#4) (hm : field 5 1 w = 0#1) :
    decode w = .addReg (field 9 3 w) (field 6 3 w) (field 3 2 w) (field 0 3 w) := by
  simp [decode, h, hm]

theorem decode_addImm (h : field 12 4 w = 1#4) (hm : field 5 1 w = 1#1) :
    decode w = .addImm (field 9 3 w) (field 6 3 w) (field 0 5 w) := by
  simp [decode, h, hm]

theorem decode_ld (h : field 12 4 w = 2#4) : decode w = .ld (field 9 3 w) (field 0 9 w) := by
  simp [decode, h]

theorem decode_andReg (h : field 12 4 w = 5#4) (hm : field 5 1 w = 0#1) :
    decode w = .andReg (field 9 3 w) (field 6 3 w) (field 3 2 w) (field 0 3 w) := by
  simp [decode, h, hm]

theorem decode_andImm (h : field 12 4 w = 5#4) (hm : field 5 1 w = 1#1) :
    decode w = .andImm (field 9 3 w) (field 6 3 w) (field 0 5 w) := by
  simp [decode, h, hm]

theorem decode_notReg (h : field 12 4 w = 9#4) : decode w = .notReg (field 9 3 w) (field 6 3 w) (field 0 6 w) := by
  simp [decode, h]

theorem decode_trapHalt (h : field 12 4 w = 15#4) (hv : field 0 6 w = Config.haltVector) :
    decode w = .trapHalt (field 6 6 w) := by
  simp [decode, h, hv]

theorem decode_trapOut (h : field 12 4 w = 15#4) (hv : field 0 6 w = Config.outVector) :
    decode w = .trapOut (field 6 6 w) := by
  simp [decode, h, hv, show Config.outVector ≠ Config.haltVector by decide]

theorem decode_trapNop (h : field 12 4 w = 15#4) (h1 : field 0 6 w ≠ Config.haltVector)
    (h2 : field 0 6 w ≠ Config.outVector) : decode w = .trapNop (field 6 6 w) (field 0 6 w) := by
  simp only [decode, h, h1, h2, if_false]
  rfl

theorem decode_ignored3 (h : field 12 4 w = 3#4) : decode w = .ignored3 (field 0 12 w) := by
  simp [decode, h]

theorem decode_ignored4 (h : field 12 4 w = 4#4) : decode w = .ignored4 (field 0 12 w) := by
  simp [decode, h]

theorem decode_ignored6 (h : field 12 4 w = 6#4) : decode w = .ignored6 (field 0 12 w) := by
  simp [decode, h]

theorem decode_ignored7 (h : field 12 4 w = 7#4) : decode w = .ignored7 (field 0 12 w) := by
  simp [decode, h]

theorem decode_ignored8 (h : field 12 4 w = 8#4) : decode w = .ignored8 (field 0 12 w) := by
  simp [decode, h]

theorem decode_ignored10 (h : field 12 4 w = 10#4) : decode w = .ignored10 (field 0 12 w) := by
  simp [decode, h]

theorem decode_ignored11 (h : field 12 4 w = 11#4) : decode w = .ignored11 (field 0 12 w) := by
  simp [decode, h]

theorem decode_ignored12 (h : field 12 4 w = 12#4) : decode w = .ignored12 (field 0 12 w) := by
  simp [decode, h]

theorem decode_ignored13 (h : field 12 4 w = 13#4) : decode w = .ignored13 (field 0 12 w) := by
  simp [decode, h]

theorem decode_ignored14 (h : field 12 4 w = 14#4) : decode w = .ignored14 (field 0 12 w) := by
  simp [decode, h]

end

/-- A one-bit field is 0 or 1. -/
theorem bit_cases (b : BitVec 1) : b = 0#1 ∨ b = 1#1 := by
  revert b; decide

/-- The sixteen values of the opcode (R63). -/
theorem opcode_cases (op : BitVec 4) :
    op = 0#4 ∨ op = 1#4 ∨ op = 2#4 ∨ op = 3#4 ∨ op = 4#4 ∨ op = 5#4 ∨ op = 6#4 ∨ op = 7#4 ∨ op = 8#4 ∨ op = 9#4 ∨
    op = 10#4 ∨ op = 11#4 ∨ op = 12#4 ∨ op = 13#4 ∨ op = 14#4 ∨ op = 15#4 := by
  revert op; decide

end Sys2Proof
end

