-- ==== Sys2Proof/Laws/Memory.lean ====
section
/-!
SUPPORT. The laws of memory: read after write, the canonical form that every write keeps, and that two memories in
canonical form with equal cells are equal.
-/
namespace Sys2Proof.Machine

/-! ## Canonical form -/

theorem Memory.wfFrom_mono {lo lo' : Nat} {m : Memory} (h : m.wfFrom lo = true) (hl : lo' ≤ lo) :
    m.wfFrom lo' = true := by
  cases m with
  | nil => rfl
  | cons c m =>
    simp only [Memory.wfFrom, Bool.and_eq_true, decide_eq_true_eq] at h ⊢
    exact ⟨⟨⟨by omega, h.1.1.2⟩, h.1.2⟩, h.2⟩

theorem Memory.wf_nil : Memory.wf [] = true := rfl

/-- A cell below every listed address reads as unlisted. -/
theorem Memory.read_of_lt {lo a : Nat} {m : Memory} (h : m.wfFrom lo = true) (ha : a < lo) : m.read a = 0#16 := by
  induction m generalizing lo with
  | nil => rfl
  | cons c m ih =>
    simp only [Memory.wfFrom, Bool.and_eq_true, decide_eq_true_eq] at h
    rw [Memory.read, if_neg (by omega)]
    exact ih h.2 (by omega)

theorem Memory.write_wfFrom {lo a : Nat} {m : Memory} {v : Word} (h : m.wfFrom lo = true) (hlo : lo ≤ a)
    (ha : a < Config.memSize) : (m.write a v).wfFrom lo = true := by
  induction m generalizing lo with
  | nil => by_cases hv : v = 0#16 <;> simp [Memory.write, Memory.wfFrom, hv, hlo, ha]
  | cons c m ih =>
    obtain ⟨b, w⟩ := c
    have hc := h
    simp only [Memory.wfFrom, Bool.and_eq_true, decide_eq_true_eq] at hc
    obtain ⟨⟨⟨h1, h2⟩, h3⟩, h4⟩ := hc
    rw [Memory.write]
    split
    · next hab =>
      split
      · exact h
      · next hv =>
        simp only [Memory.wfFrom, Bool.and_eq_true, decide_eq_true_eq]
        exact ⟨⟨⟨hlo, ha⟩, hv⟩, ⟨⟨by omega, h2⟩, h3⟩, h4⟩
    · split
      · next hab hab' =>
        split
        · exact Memory.wfFrom_mono h4 (by omega)
        · next hv =>
          simp only [Memory.wfFrom, Bool.and_eq_true, decide_eq_true_eq]
          subst hab'
          exact ⟨⟨⟨hlo, ha⟩, hv⟩, h4⟩
      · simp only [Memory.wfFrom, Bool.and_eq_true, decide_eq_true_eq]
        exact ⟨⟨⟨h1, h2⟩, h3⟩, ih h4 (by omega)⟩

/-- A write inside the address space keeps the canonical form. -/
theorem Memory.write_wf {a : Nat} {m : Memory} (v : Word) (h : m.wf = true) (ha : a < Config.memSize) :
    (m.write a v).wf = true :=
  Memory.write_wfFrom h (Nat.zero_le a) ha

/-! ## Read after write -/

theorem Memory.read_writeFrom {lo a : Nat} {m : Memory} (v : Word) (b : Nat) (h : m.wfFrom lo = true) :
    (m.write a v).read b = if b = a then v else m.read b := by
  induction m generalizing lo with
  | nil =>
    have hb : (a = b) = (b = a) := propext eq_comm
    by_cases hv : v = 0#16 <;> simp [Memory.write, Memory.read, hv, hb]
  | cons c m ih =>
    obtain ⟨k, w⟩ := c
    have hc := h
    simp only [Memory.wfFrom, Bool.and_eq_true, decide_eq_true_eq] at hc
    obtain ⟨⟨⟨h1, h2⟩, h3⟩, h4⟩ := hc
    have below : ∀ c : Nat, c < k + 1 → Memory.read m c = 0#16 := fun c hc => Memory.read_of_lt h4 hc
    rw [Memory.write]
    split
    · next hab =>
      split
      · next hv =>
        split
        · next hb => subst hb; rw [Memory.read, if_neg (by omega), below _ (by omega), hv]
        · rfl
      · rw [Memory.read]
        simp only [eq_comm]
    · split
      · next hab hk =>
        subst hk
        by_cases hb : b = a
        · subst hb
          split
          · next hv => rw [below b (by omega), if_pos rfl, hv]
          · simp [Memory.read]
        · have : ¬ a = b := fun e => hb e.symm
          split <;> simp [Memory.read, this]
      · next hab hk =>
        rw [Memory.read, Memory.read, ih h4]
        by_cases hkb : k = b
        · subst hkb
          rw [if_pos rfl, if_neg fun e : k = a => hk e.symm, if_pos rfl]
        · simp [hkb]

/-- Read after write: the written cell holds the value and every other cell is as before. -/
theorem Memory.read_write {a : Nat} {m : Memory} (v : Word) (b : Nat) (h : m.wf = true) :
    (m.write a v).read b = if b = a then v else m.read b :=
  Memory.read_writeFrom v b h

/-! ## Equal cells, equal memories -/

theorem Memory.ext_from {lo : Nat} {m n : Memory} (hm : m.wfFrom lo = true) (hn : n.wfFrom lo = true)
    (h : ∀ a, m.read a = n.read a) : m = n := by
  induction m generalizing lo n with
  | nil =>
    cases n with
    | nil => rfl
    | cons c n =>
      simp only [Memory.wfFrom, Bool.and_eq_true, decide_eq_true_eq] at hn
      have := h c.1
      simp only [Memory.read, if_true] at this
      exact absurd this.symm hn.1.2
  | cons c m ih =>
    obtain ⟨a, v⟩ := c
    cases n with
    | nil =>
      simp only [Memory.wfFrom, Bool.and_eq_true, decide_eq_true_eq] at hm
      have := h a
      simp only [Memory.read, if_true] at this
      exact absurd this hm.1.2
    | cons d n =>
      obtain ⟨b, w⟩ := d
      simp only [Memory.wfFrom, Bool.and_eq_true, decide_eq_true_eq] at hm hn
      obtain ⟨⟨-, hv⟩, hm⟩ := hm
      obtain ⟨⟨-, hw⟩, hn⟩ := hn
      have ha := h a
      have hb := h b
      simp only [Memory.read, if_true] at ha hb
      have hab : a = b := by
        rcases Nat.lt_trichotomy a b with hlt | heq | hgt
        · rw [if_neg (by omega), Memory.read_of_lt hn (by omega)] at ha
          exact absurd ha hv
        · exact heq
        · rw [if_neg (by omega), Memory.read_of_lt hm (by omega)] at hb
          exact absurd hb.symm hw
      subst hab
      rw [if_pos rfl] at ha
      subst ha
      rw [ih hm hn fun c => ?_]
      have hc := h c
      simp only [Memory.read] at hc
      by_cases hac : a = c
      · subst hac; rw [Memory.read_of_lt hm (by omega), Memory.read_of_lt hn (by omega)]
      · rwa [if_neg hac, if_neg hac] at hc

/-- Two memories in canonical form with the same cells are the same data. -/
theorem Memory.ext_of_read {m n : Memory} (hm : m.wf = true) (hn : n.wf = true) (h : ∀ a, m.read a = n.read a) :
    m = n :=
  Memory.ext_from hm hn h

/-! ## MemRead and MemWrite -/

theorem memRead_ok {m : Memory} {addr : Int} (c : Cause) (h : addressExists addr) :
    memRead m c addr = .ok (m.read addr.toNat) := if_pos h

theorem memRead_error {m : Memory} {addr : Int} (c : Cause) (h : ¬ addressExists addr) :
    memRead m c addr = .error { cause := c, addr } := if_neg h

theorem memWrite_ok {m : Memory} {addr : Int} (c : Cause) (v : Word) (h : addressExists addr) :
    memWrite m c addr v = .ok (m.write addr.toNat v) := if_pos h

theorem memWrite_error {m : Memory} {addr : Int} (c : Cause) (v : Word) (h : ¬ addressExists addr) :
    memWrite m c addr v = .error { cause := c, addr } := if_neg h

/-- A memory that `MemWrite` answers is in canonical form. -/
theorem memWrite_wf {m m' : Memory} {c : Cause} {addr : Int} {v : Word} (hm : m.wf = true)
    (h : memWrite m c addr v = .ok m') : m'.wf = true := by
  by_cases hr : addressExists addr
  · rw [memWrite_ok c v hr] at h
    cases h
    exact Memory.write_wf v hm (by obtain ⟨h1, h2⟩ := hr; omega)
  · rw [memWrite_error c v hr] at h
    cases h

end Sys2Proof.Machine
end

