-- ==== Sys2Proof/Laws/Operands.lean ====
section
/-!
SUPPORT. Lemmas of the bit-vector datapath and of the condition code.
-/
namespace Sys2Proof.Machine

/-- The wrapped signed sum is the sum of bit vectors (R37, R88 corner case 5). -/
theorem addWords_eq (a b : Word) : addWords a b = a + b := by
  apply BitVec.eq_of_toInt_eq
  simp [addWords, wrap16, BitVec.toInt_add, BitVec.toInt_ofInt]

theorem incrementByOne_eq (v : Word) : incrementByOne v = v + 1 := by
  apply BitVec.eq_of_toNat_eq
  simp only [incrementByOne, wrap16, BitVec.toNat_add, BitVec.toNat_ofInt, uval]
  have h : (1 : Word).toNat = 1 := rfl
  omega

/-- The increment does not wrap below 0xFFFF (R16). -/
theorem incrementByOne_toNat {v : Word} (h : uval v < 65535) : uval (incrementByOne v) = uval v + 1 := by
  have h1 : (1 : Word).toNat = 1 := rfl
  simp only [uval] at h ⊢
  rw [incrementByOne_eq, BitVec.toNat_add, h1]
  omega

theorem wrap16_toNat (n : Int) : (uval (wrap16 n) : Int) = n % 65536 := by
  simp [wrap16, BitVec.toNat_ofInt]
  omega

/-- Sign extension keeps the signed reading (R9). -/
theorem sext16_toInt {n : Nat} (v : BitVec n) (h : n ≤ 16) : sval (sext16 v) = sval v := by
  simp [sext16, BitVec.toInt_signExtend_of_le h]

/-- The range of a signed 9-bit offset (R62). -/
theorem off9_range (v : BitVec 9) : -256 ≤ sval v ∧ sval v ≤ 255 := by
  have h1 := BitVec.le_toInt v
  have h2 := BitVec.toInt_lt (x := v)
  norm_num at h1 h2
  exact ⟨by simpa using h1, by simp only [sval]; omega⟩

theorem setcc_cases (r : Word) :
    (sval r < 0 ∧ setcc r = 0b100#3) ∨ (r = 0 ∧ setcc r = 0b010#3) ∨ (0 < sval r ∧ setcc r = 0b001#3) := by
  unfold setcc
  by_cases h : sval r < 0
  · exact .inl ⟨h, if_pos h⟩
  · by_cases h0 : uval r = 0
    · have hr : r = 0 := BitVec.eq_of_toNat_eq h0
      subst hr
      exact .inr (.inl ⟨rfl, rfl⟩)
    · refine .inr (.inr ⟨?_, by rw [if_neg h, if_neg h0]⟩)
      have hc := BitVec.toInt_eq_toNat_cond r
      simp only [uval, sval] at h h0 ⊢
      split at hc <;> omega

end Sys2Proof.Machine
end

