-- ==== Sys2Proof/Laws/State.lean ====
section
/-!
SUPPORT. The fields of State after each update: one lemma per field per update, so that no proof unfolds a record update;
and the register file's read after write.
-/
namespace Sys2Proof.Machine.State

variable (s : State)

/-! ### setReg -/

@[simp] theorem setReg_pc (r : RegIdx) (v : Word) : (s.setReg r v).pc = s.pc := rfl
@[simp] theorem setReg_ir (r : RegIdx) (v : Word) : (s.setReg r v).ir = s.ir := rfl
@[simp] theorem setReg_cc (r : RegIdx) (v : Word) : (s.setReg r v).cc = s.cc := rfl
@[simp] theorem setReg_mem (r : RegIdx) (v : Word) : (s.setReg r v).mem = s.mem := rfl
@[simp] theorem setReg_status (r : RegIdx) (v : Word) : (s.setReg r v).status = s.status := rfl
@[simp] theorem setReg_output (r : RegIdx) (v : Word) : (s.setReg r v).output = s.output := rfl
@[simp] theorem setReg_faultRecord (r : RegIdx) (v : Word) : (s.setReg r v).faultRecord = s.faultRecord := rfl
@[simp] theorem setReg_hostQueue (r : RegIdx) (v : Word) : (s.setReg r v).hostQueue = s.hostQueue := rfl
@[simp] theorem setReg_replies (r : RegIdx) (v : Word) : (s.setReg r v).replies = s.replies := rfl

/-! ### setRegs -/

@[simp] theorem setRegs_regs (v : Vector Word 8) : (s.setRegs v).regs = v := rfl
@[simp] theorem setRegs_pc (v : Vector Word 8) : (s.setRegs v).pc = s.pc := rfl
@[simp] theorem setRegs_ir (v : Vector Word 8) : (s.setRegs v).ir = s.ir := rfl
@[simp] theorem setRegs_cc (v : Vector Word 8) : (s.setRegs v).cc = s.cc := rfl
@[simp] theorem setRegs_mem (v : Vector Word 8) : (s.setRegs v).mem = s.mem := rfl
@[simp] theorem setRegs_status (v : Vector Word 8) : (s.setRegs v).status = s.status := rfl
@[simp] theorem setRegs_output (v : Vector Word 8) : (s.setRegs v).output = s.output := rfl
@[simp] theorem setRegs_faultRecord (v : Vector Word 8) : (s.setRegs v).faultRecord = s.faultRecord := rfl
@[simp] theorem setRegs_hostQueue (v : Vector Word 8) : (s.setRegs v).hostQueue = s.hostQueue := rfl
@[simp] theorem setRegs_replies (v : Vector Word 8) : (s.setRegs v).replies = s.replies := rfl

/-! ### setPc -/

@[simp] theorem setPc_regs (v : Word) : (s.setPc v).regs = s.regs := rfl
@[simp] theorem setPc_pc (v : Word) : (s.setPc v).pc = v := rfl
@[simp] theorem setPc_ir (v : Word) : (s.setPc v).ir = s.ir := rfl
@[simp] theorem setPc_cc (v : Word) : (s.setPc v).cc = s.cc := rfl
@[simp] theorem setPc_mem (v : Word) : (s.setPc v).mem = s.mem := rfl
@[simp] theorem setPc_status (v : Word) : (s.setPc v).status = s.status := rfl
@[simp] theorem setPc_output (v : Word) : (s.setPc v).output = s.output := rfl
@[simp] theorem setPc_faultRecord (v : Word) : (s.setPc v).faultRecord = s.faultRecord := rfl
@[simp] theorem setPc_hostQueue (v : Word) : (s.setPc v).hostQueue = s.hostQueue := rfl
@[simp] theorem setPc_replies (v : Word) : (s.setPc v).replies = s.replies := rfl
@[simp] theorem setPc_getReg (v : Word) (q : RegIdx) : (s.setPc v).getReg q = s.getReg q := rfl

/-! ### setIr -/

@[simp] theorem setIr_regs (v : Word) : (s.setIr v).regs = s.regs := rfl
@[simp] theorem setIr_pc (v : Word) : (s.setIr v).pc = s.pc := rfl
@[simp] theorem setIr_ir (v : Word) : (s.setIr v).ir = v := rfl
@[simp] theorem setIr_cc (v : Word) : (s.setIr v).cc = s.cc := rfl
@[simp] theorem setIr_mem (v : Word) : (s.setIr v).mem = s.mem := rfl
@[simp] theorem setIr_status (v : Word) : (s.setIr v).status = s.status := rfl
@[simp] theorem setIr_output (v : Word) : (s.setIr v).output = s.output := rfl
@[simp] theorem setIr_faultRecord (v : Word) : (s.setIr v).faultRecord = s.faultRecord := rfl
@[simp] theorem setIr_hostQueue (v : Word) : (s.setIr v).hostQueue = s.hostQueue := rfl
@[simp] theorem setIr_replies (v : Word) : (s.setIr v).replies = s.replies := rfl
@[simp] theorem setIr_getReg (v : Word) (q : RegIdx) : (s.setIr v).getReg q = s.getReg q := rfl

/-! ### setCc -/

@[simp] theorem setCc_regs (v : CondCode) : (s.setCc v).regs = s.regs := rfl
@[simp] theorem setCc_pc (v : CondCode) : (s.setCc v).pc = s.pc := rfl
@[simp] theorem setCc_ir (v : CondCode) : (s.setCc v).ir = s.ir := rfl
@[simp] theorem setCc_cc (v : CondCode) : (s.setCc v).cc = v := rfl
@[simp] theorem setCc_mem (v : CondCode) : (s.setCc v).mem = s.mem := rfl
@[simp] theorem setCc_status (v : CondCode) : (s.setCc v).status = s.status := rfl
@[simp] theorem setCc_output (v : CondCode) : (s.setCc v).output = s.output := rfl
@[simp] theorem setCc_faultRecord (v : CondCode) : (s.setCc v).faultRecord = s.faultRecord := rfl
@[simp] theorem setCc_hostQueue (v : CondCode) : (s.setCc v).hostQueue = s.hostQueue := rfl
@[simp] theorem setCc_replies (v : CondCode) : (s.setCc v).replies = s.replies := rfl
@[simp] theorem setCc_getReg (v : CondCode) (q : RegIdx) : (s.setCc v).getReg q = s.getReg q := rfl

/-! ### setMem -/

@[simp] theorem setMem_regs (v : Memory) : (s.setMem v).regs = s.regs := rfl
@[simp] theorem setMem_pc (v : Memory) : (s.setMem v).pc = s.pc := rfl
@[simp] theorem setMem_ir (v : Memory) : (s.setMem v).ir = s.ir := rfl
@[simp] theorem setMem_cc (v : Memory) : (s.setMem v).cc = s.cc := rfl
@[simp] theorem setMem_mem (v : Memory) : (s.setMem v).mem = v := rfl
@[simp] theorem setMem_status (v : Memory) : (s.setMem v).status = s.status := rfl
@[simp] theorem setMem_output (v : Memory) : (s.setMem v).output = s.output := rfl
@[simp] theorem setMem_faultRecord (v : Memory) : (s.setMem v).faultRecord = s.faultRecord := rfl
@[simp] theorem setMem_hostQueue (v : Memory) : (s.setMem v).hostQueue = s.hostQueue := rfl
@[simp] theorem setMem_replies (v : Memory) : (s.setMem v).replies = s.replies := rfl
@[simp] theorem setMem_getReg (v : Memory) (q : RegIdx) : (s.setMem v).getReg q = s.getReg q := rfl

/-! ### setStatus -/

@[simp] theorem setStatus_regs (v : RunStatus) : (s.setStatus v).regs = s.regs := rfl
@[simp] theorem setStatus_pc (v : RunStatus) : (s.setStatus v).pc = s.pc := rfl
@[simp] theorem setStatus_ir (v : RunStatus) : (s.setStatus v).ir = s.ir := rfl
@[simp] theorem setStatus_cc (v : RunStatus) : (s.setStatus v).cc = s.cc := rfl
@[simp] theorem setStatus_mem (v : RunStatus) : (s.setStatus v).mem = s.mem := rfl
@[simp] theorem setStatus_status (v : RunStatus) : (s.setStatus v).status = v := rfl
@[simp] theorem setStatus_output (v : RunStatus) : (s.setStatus v).output = s.output := rfl
@[simp] theorem setStatus_faultRecord (v : RunStatus) : (s.setStatus v).faultRecord = s.faultRecord := rfl
@[simp] theorem setStatus_hostQueue (v : RunStatus) : (s.setStatus v).hostQueue = s.hostQueue := rfl
@[simp] theorem setStatus_replies (v : RunStatus) : (s.setStatus v).replies = s.replies := rfl
@[simp] theorem setStatus_getReg (v : RunStatus) (q : RegIdx) : (s.setStatus v).getReg q = s.getReg q := rfl

/-! ### setFaultRecord -/

@[simp] theorem setFaultRecord_regs (v : Option OutOfRangeError) : (s.setFaultRecord v).regs = s.regs := rfl
@[simp] theorem setFaultRecord_pc (v : Option OutOfRangeError) : (s.setFaultRecord v).pc = s.pc := rfl
@[simp] theorem setFaultRecord_ir (v : Option OutOfRangeError) : (s.setFaultRecord v).ir = s.ir := rfl
@[simp] theorem setFaultRecord_cc (v : Option OutOfRangeError) : (s.setFaultRecord v).cc = s.cc := rfl
@[simp] theorem setFaultRecord_mem (v : Option OutOfRangeError) : (s.setFaultRecord v).mem = s.mem := rfl
@[simp] theorem setFaultRecord_status (v : Option OutOfRangeError) : (s.setFaultRecord v).status = s.status := rfl
@[simp] theorem setFaultRecord_output (v : Option OutOfRangeError) : (s.setFaultRecord v).output = s.output := rfl
@[simp] theorem setFaultRecord_faultRecord (v : Option OutOfRangeError) : (s.setFaultRecord v).faultRecord = v := rfl
@[simp] theorem setFaultRecord_hostQueue (v : Option OutOfRangeError) : (s.setFaultRecord v).hostQueue = s.hostQueue := rfl
@[simp] theorem setFaultRecord_replies (v : Option OutOfRangeError) : (s.setFaultRecord v).replies = s.replies := rfl
@[simp] theorem setFaultRecord_getReg (v : Option OutOfRangeError) (q : RegIdx) : (s.setFaultRecord v).getReg q = s.getReg q := rfl

/-! ### setHostQueue -/

@[simp] theorem setHostQueue_regs (v : List HostCommand) : (s.setHostQueue v).regs = s.regs := rfl
@[simp] theorem setHostQueue_pc (v : List HostCommand) : (s.setHostQueue v).pc = s.pc := rfl
@[simp] theorem setHostQueue_ir (v : List HostCommand) : (s.setHostQueue v).ir = s.ir := rfl
@[simp] theorem setHostQueue_cc (v : List HostCommand) : (s.setHostQueue v).cc = s.cc := rfl
@[simp] theorem setHostQueue_mem (v : List HostCommand) : (s.setHostQueue v).mem = s.mem := rfl
@[simp] theorem setHostQueue_status (v : List HostCommand) : (s.setHostQueue v).status = s.status := rfl
@[simp] theorem setHostQueue_output (v : List HostCommand) : (s.setHostQueue v).output = s.output := rfl
@[simp] theorem setHostQueue_faultRecord (v : List HostCommand) : (s.setHostQueue v).faultRecord = s.faultRecord := rfl
@[simp] theorem setHostQueue_hostQueue (v : List HostCommand) : (s.setHostQueue v).hostQueue = v := rfl
@[simp] theorem setHostQueue_replies (v : List HostCommand) : (s.setHostQueue v).replies = s.replies := rfl
@[simp] theorem setHostQueue_getReg (v : List HostCommand) (q : RegIdx) : (s.setHostQueue v).getReg q = s.getReg q := rfl

/-! ### pushOutput -/

@[simp] theorem pushOutput_regs (c : Byte) : (s.pushOutput c).regs = s.regs := rfl
@[simp] theorem pushOutput_pc (c : Byte) : (s.pushOutput c).pc = s.pc := rfl
@[simp] theorem pushOutput_ir (c : Byte) : (s.pushOutput c).ir = s.ir := rfl
@[simp] theorem pushOutput_cc (c : Byte) : (s.pushOutput c).cc = s.cc := rfl
@[simp] theorem pushOutput_mem (c : Byte) : (s.pushOutput c).mem = s.mem := rfl
@[simp] theorem pushOutput_status (c : Byte) : (s.pushOutput c).status = s.status := rfl
@[simp] theorem pushOutput_output (c : Byte) : (s.pushOutput c).output = s.output ++ [c] := rfl
@[simp] theorem pushOutput_faultRecord (c : Byte) : (s.pushOutput c).faultRecord = s.faultRecord := rfl
@[simp] theorem pushOutput_hostQueue (c : Byte) : (s.pushOutput c).hostQueue = s.hostQueue := rfl
@[simp] theorem pushOutput_replies (c : Byte) : (s.pushOutput c).replies = s.replies := rfl
@[simp] theorem pushOutput_getReg (c : Byte) (q : RegIdx) : (s.pushOutput c).getReg q = s.getReg q := rfl

/-! ### pushReply -/

@[simp] theorem pushReply_regs (r : HostReply) : (s.pushReply r).regs = s.regs := rfl
@[simp] theorem pushReply_pc (r : HostReply) : (s.pushReply r).pc = s.pc := rfl
@[simp] theorem pushReply_ir (r : HostReply) : (s.pushReply r).ir = s.ir := rfl
@[simp] theorem pushReply_cc (r : HostReply) : (s.pushReply r).cc = s.cc := rfl
@[simp] theorem pushReply_mem (r : HostReply) : (s.pushReply r).mem = s.mem := rfl
@[simp] theorem pushReply_status (r : HostReply) : (s.pushReply r).status = s.status := rfl
@[simp] theorem pushReply_output (r : HostReply) : (s.pushReply r).output = s.output := rfl
@[simp] theorem pushReply_faultRecord (r : HostReply) : (s.pushReply r).faultRecord = s.faultRecord := rfl
@[simp] theorem pushReply_hostQueue (r : HostReply) : (s.pushReply r).hostQueue = s.hostQueue := rfl
@[simp] theorem pushReply_replies (r : HostReply) : (s.pushReply r).replies = s.replies ++ [r] := rfl
@[simp] theorem pushReply_getReg (r : HostReply) (q : RegIdx) : (s.pushReply r).getReg q = s.getReg q := rfl

/-! ### The register file -/

/-- Read after write of a general register: no register is hardwired (R11). -/
theorem getReg_setReg (r q : RegIdx) (v : Word) : (s.setReg r v).getReg q = if q = r then v else s.getReg q := by
  simp only [getReg, setReg, Vector.getElem_set, BitVec.toNat_inj]
  split <;> simp_all [eq_comm]

@[simp] theorem getReg_setReg_same (r : RegIdx) (v : Word) : (s.setReg r v).getReg r = v := by
  simp [getReg_setReg]

/-- The registers are equal when every register reads the same. -/
theorem regs_ext {s t : State} (h : ∀ q, s.getReg q = t.getReg q) : s.regs = t.regs := by
  apply Vector.ext
  intro i hi
  have := h (BitVec.ofNat 3 i)
  simpa [getReg, Nat.mod_eq_of_lt hi] using this

/-! ### The composite updates -/

section
variable (r : RegIdx) (v : Word)
@[simp] theorem writeResult_pc : (s.writeResult r v).pc = s.pc := rfl
@[simp] theorem writeResult_ir : (s.writeResult r v).ir = s.ir := rfl
@[simp] theorem writeResult_cc : (s.writeResult r v).cc = setcc v := rfl
@[simp] theorem writeResult_mem : (s.writeResult r v).mem = s.mem := rfl
@[simp] theorem writeResult_status : (s.writeResult r v).status = s.status := rfl
@[simp] theorem writeResult_output : (s.writeResult r v).output = s.output := rfl
@[simp] theorem writeResult_faultRecord : (s.writeResult r v).faultRecord = s.faultRecord := rfl
@[simp] theorem writeResult_hostQueue : (s.writeResult r v).hostQueue = s.hostQueue := rfl
@[simp] theorem writeResult_replies : (s.writeResult r v).replies = s.replies := rfl
theorem writeResult_getReg (q : RegIdx) : (s.writeResult r v).getReg q = if q = r then v else s.getReg q :=
  getReg_setReg s r q v
end

section
@[simp] theorem haltRun_regs : s.haltRun.regs = s.regs := rfl
@[simp] theorem haltRun_pc : s.haltRun.pc = s.pc := rfl
@[simp] theorem haltRun_ir : s.haltRun.ir = s.ir := rfl
@[simp] theorem haltRun_cc : s.haltRun.cc = s.cc := rfl
@[simp] theorem haltRun_mem : s.haltRun.mem = s.mem := rfl
@[simp] theorem haltRun_status : s.haltRun.status = .halted := rfl
@[simp] theorem haltRun_output : s.haltRun.output = s.output := rfl
@[simp] theorem haltRun_faultRecord : s.haltRun.faultRecord = s.faultRecord := rfl
@[simp] theorem haltRun_hostQueue : s.haltRun.hostQueue = s.hostQueue := rfl
@[simp] theorem haltRun_replies : s.haltRun.replies = s.replies ++ [.runReturned] := rfl
@[simp] theorem haltRun_getReg (q : RegIdx) : s.haltRun.getReg q = s.getReg q := rfl
end

section
variable (e : OutOfRangeError)
@[simp] theorem raiseInRun_regs : (s.raiseInRun e).regs = s.regs := rfl
@[simp] theorem raiseInRun_pc : (s.raiseInRun e).pc = s.pc := rfl
@[simp] theorem raiseInRun_ir : (s.raiseInRun e).ir = s.ir := rfl
@[simp] theorem raiseInRun_cc : (s.raiseInRun e).cc = s.cc := rfl
@[simp] theorem raiseInRun_mem : (s.raiseInRun e).mem = s.mem := rfl
@[simp] theorem raiseInRun_status : (s.raiseInRun e).status = .faulted := rfl
@[simp] theorem raiseInRun_output : (s.raiseInRun e).output = s.output := rfl
@[simp] theorem raiseInRun_faultRecord : (s.raiseInRun e).faultRecord = some e := rfl
@[simp] theorem raiseInRun_hostQueue : (s.raiseInRun e).hostQueue = s.hostQueue := rfl
@[simp] theorem raiseInRun_replies : (s.raiseInRun e).replies = s.replies ++ [.error e] := rfl
@[simp] theorem raiseInRun_getReg (q : RegIdx) : (s.raiseInRun e).getReg q = s.getReg q := rfl
end

end Sys2Proof.Machine.State
end

