-- ==== Sys2Proof/Laws/Ops.lean ====
section
/-!
SUPPORT. What each shared operation, the execute phase and the host's commands can do, said once: later proofs cite these
and unfold none of them.
-/
namespace Sys2Proof.Machine

/-! ## Fetch -/

/-- An unsigned address exists exactly below 50. -/
theorem addressExists_uval {n : Nat} (a : BitVec n) : addressExists (uval a) ↔ uval a < Config.memSize := by
  constructor
  · rintro ⟨-, h⟩; omega
  · intro h; exact ⟨by omega, by omega⟩

theorem fetch_ok {s : State} (h : uval s.pc < Config.memSize) :
    fetch s = .ok ((s.setIr (s.mem.read (uval s.pc))).setPc (incrementByOne s.pc)) := by
  have he : addressExists (uval s.pc) := (addressExists_uval s.pc).2 h
  unfold fetch
  rw [memRead_ok _ he]
  rfl

theorem fetch_error {s : State} (h : ¬ uval s.pc < Config.memSize) :
    fetch s = .error { cause := .oorFetch, addr := uval s.pc } := by
  have he : ¬ addressExists (uval s.pc) := fun h' => h ((addressExists_uval s.pc).1 h')
  unfold fetch
  rw [memRead_error _ he]

/-! ## The execute phase -/

theorem execBr_taken {nzp : BitVec 3} {s : State} (off9 : BitVec 9) (h : branchTaken nzp s.cc = true) :
    execBr nzp off9 s = .next (s.setPc (branchTarget s.pc off9)) := if_pos h

theorem execBr_notTaken {nzp : BitVec 3} {s : State} (off9 : BitVec 9) (h : ¬ branchTaken nzp s.cc = true) :
    execBr nzp off9 s = .next s := if_neg h

theorem execLd_ok {off9 : BitVec 9} {s : State} (dr : RegIdx) (h : addressExists (loadAddress s.pc off9)) :
    execLd dr off9 s = .next (s.writeResult dr (s.mem.read (loadAddress s.pc off9).toNat)) := by
  rw [execLd, memRead_ok _ h]

theorem execLd_error {off9 : BitVec 9} {s : State} (dr : RegIdx) (h : ¬ addressExists (loadAddress s.pc off9)) :
    execLd dr off9 s = .next (s.raiseInRun { cause := .oorLd, addr := loadAddress s.pc off9 }) := by
  rw [execLd, memRead_error _ h]

/-- Everything the execute phase can do: it always answers a next state, and that state is one of these. -/
theorem exec_cases (i : Instr) (s : State) :
    (exec i s = .next s) ∨
    (∃ nzp off9, i = .br nzp off9 ∧ branchTaken nzp s.cc = true ∧
      exec i s = .next (s.setPc (branchTarget s.pc off9))) ∨
    (∃ dr v, exec i s = .next (s.writeResult dr v)) ∨
    (∃ ign, i = .trapHalt ign ∧ exec i s = .next s.haltRun) ∨
    (∃ ign, i = .trapOut ign ∧ exec i s = .next (s.pushOutput (lowByte (s.getReg 0)))) ∨
    (∃ dr off9, i = .ld dr off9 ∧ ¬ addressExists (loadAddress s.pc off9) ∧
      exec i s = .next (s.raiseInRun { cause := .oorLd, addr := loadAddress s.pc off9 })) := by
  cases i with
  | br nzp off9 =>
    by_cases h : branchTaken nzp s.cc = true
    · exact .inr (.inl ⟨nzp, off9, rfl, h, execBr_taken off9 h⟩)
    · exact .inl (execBr_notTaken off9 h)
  | ld dr off9 =>
    by_cases h : addressExists (loadAddress s.pc off9)
    · exact .inr (.inr (.inl ⟨dr, _, execLd_ok dr h⟩))
    · exact .inr (.inr (.inr (.inr (.inr ⟨dr, off9, rfl, h, execLd_error dr h⟩))))
  | addReg dr => exact .inr (.inr (.inl ⟨dr, _, rfl⟩))
  | addImm dr => exact .inr (.inr (.inl ⟨dr, _, rfl⟩))
  | andReg dr => exact .inr (.inr (.inl ⟨dr, _, rfl⟩))
  | andImm dr => exact .inr (.inr (.inl ⟨dr, _, rfl⟩))
  | notReg dr => exact .inr (.inr (.inl ⟨dr, _, rfl⟩))
  | trapHalt ign => exact .inr (.inr (.inr (.inl ⟨ign, rfl, rfl⟩)))
  | trapOut ign => exact .inr (.inr (.inr (.inr (.inl ⟨ign, rfl, rfl⟩))))
  | trapNop => exact .inl rfl
  | ignored3 => exact .inl rfl
  | ignored4 => exact .inl rfl
  | ignored6 => exact .inl rfl
  | ignored7 => exact .inl rfl
  | ignored8 => exact .inl rfl
  | ignored10 => exact .inl rfl
  | ignored11 => exact .inl rfl
  | ignored12 => exact .inl rfl
  | ignored13 => exact .inl rfl
  | ignored14 => exact .inl rfl

/-! ## The host's commands -/

theorem setSigned_some {n : Int} (h : -32768 ≤ n ∧ n ≤ 32767) : setSigned n = some (BitVec.ofInt 16 n) := if_pos h

theorem setSigned_none {n : Int} (h : ¬ (-32768 ≤ n ∧ n ≤ 32767)) : setSigned n = none := if_neg h

theorem hostWrite_ok {addr : Int} (c : Cause) (v : Word) (s : State) (h : addressExists addr) :
    hostWrite c addr v s = .next ((s.setMem (s.mem.write addr.toNat v)).pushReply .done) := by
  rw [hostWrite, memWrite_ok _ _ h]

theorem hostWrite_error {addr : Int} (c : Cause) (v : Word) (s : State) (h : ¬ addressExists addr) :
    hostWrite c addr v s = .next (s.pushReply (.error { cause := c, addr })) := by
  rw [hostWrite, memWrite_error _ _ h]

theorem hostWrite_cases (c : Cause) (addr : Int) (v : Word) (s : State) :
    (addressExists addr ∧ hostWrite c addr v s = .next ((s.setMem (s.mem.write addr.toNat v)).pushReply .done)) ∨
    (∃ r, hostWrite c addr v s = .next (s.pushReply r)) := by
  by_cases h : addressExists addr
  · exact .inl ⟨h, hostWrite_ok c v s h⟩
  · exact .inr ⟨_, hostWrite_error c v s h⟩

/-- Everything a host command can do, if it answers a next state: give a reply and change nothing, write one existing
cell, start a run, or reset. -/
theorem hostExec_next {c : HostCommand} {s t : State} (h : hostExec c s = .next t) :
    (∃ r, t = s.pushReply r) ∨
    (∃ addr v, addressExists addr ∧ ((c = .loadWord addr v) ∨ ∃ n, c = .setMemoryCell addr n) ∧
      t = (s.setMem (s.mem.write addr.toNat v)).pushReply .done) ∨
    (c = .run ∧ s.status ≠ .faulted ∧ t = s.setStatus .running) ∨
    (c = .reset ∧ t = ((s.setRegs powerOnRegs).setMem []).pushReply .done) := by
  cases c with
  | loadWord addr w =>
    rcases hostWrite_cases .oorHostLoad addr w s with ⟨he, hw⟩ | ⟨r, hw⟩ <;>
      simp only [hostExec, hostLoadWord, hw, Host.Outcome.next.injEq] at h
    · exact .inr (.inl ⟨addr, w, he, .inl rfl, h.symm⟩)
    · exact .inl ⟨r, h.symm⟩
  | setMemoryCell addr n =>
    by_cases hn : -32768 ≤ n ∧ n ≤ 32767
    · rcases hostWrite_cases .oorHostSet addr (BitVec.ofInt 16 n) s with ⟨he, hw⟩ | ⟨r, hw⟩ <;>
        simp only [hostExec, hostSetMemoryCell, setSigned_some hn, hw, Host.Outcome.next.injEq] at h
      · exact .inr (.inl ⟨addr, _, he, .inr ⟨n, rfl⟩, h.symm⟩)
      · exact .inl ⟨r, h.symm⟩
    · simp [hostExec, hostSetMemoryCell, setSigned_none hn] at h
  | getMemoryCell addr =>
    by_cases he : addressExists addr
    · simp only [hostExec, hostGetMemoryCell, memRead_ok _ he, Host.Outcome.next.injEq] at h
      exact .inl ⟨_, h.symm⟩
    · simp only [hostExec, hostGetMemoryCell, memRead_error _ he, Host.Outcome.next.injEq] at h
      exact .inl ⟨_, h.symm⟩
  | run =>
    simp only [hostExec, hostRun] at h
    split at h <;> simp only [Host.Outcome.next.injEq, reduceCtorEq] at h <;>
      exact .inr (.inr (.inl ⟨rfl, by simp [*], h.symm⟩))
  | reset => exact .inr (.inr (.inr ⟨rfl, (Host.Outcome.next.inj h).symm⟩))
  | getRegisters => exact .inl ⟨_, (Host.Outcome.next.inj h).symm⟩
  | getConditionCode => exact .inl ⟨_, (Host.Outcome.next.inj h).symm⟩
  | readPc => exact .inl ⟨_, (Host.Outcome.next.inj h).symm⟩
  | readIr => exact .inl ⟨_, (Host.Outcome.next.inj h).symm⟩
  | readStatus => exact .inl ⟨_, (Host.Outcome.next.inj h).symm⟩
  | readFaultRecord => exact .inl ⟨_, (Host.Outcome.next.inj h).symm⟩
  | readOutput => exact .inl ⟨_, (Host.Outcome.next.inj h).symm⟩

/-- Everything that can happen while no run is in progress. -/
theorem hostStep_next {s t : State} (h : hostStep s = .next t) :
    (s.hostQueue = [] ∧ t = s) ∨
    (∃ c rest, s.hostQueue = c :: rest ∧ hostExec c (s.setHostQueue rest) = .next t) := by
  unfold hostStep at h
  split at h
  · next hq => exact .inl ⟨hq, (Host.Outcome.next.inj h).symm⟩
  · next c rest hq => exact .inr ⟨c, rest, hq, h⟩

end Sys2Proof.Machine
end

