-- ==== Sys2Proof/Laws/PerInstr.lean ====
section
/-!
SUPPORT. Decoding an encoded well-formed instruction gives it back: one lemma per constructor of Instr.
The proofs are short and alike; run all at once they take a thread and about a gigabyte of address space each, so the file
elaborates them one after another.
-/
set_option Elab.async false

namespace Sys2Proof.Laws

/-- Decode undoes encode. -/
def RoundTrip.Statement (i : Instr) : Prop := i.wf = true → decode (encode i) = i

theorem RoundTrip.br (nzp : BitVec 3) (off9 : BitVec 9) : Statement (.br nzp off9) := fun _ => by
  rw [decode_br] <;> simp [encode, field_or, field_place_same, field_place_disjoint]

theorem RoundTrip.addReg (dr : RegIdx) (sr1 : RegIdx) (ign : BitVec 2) (sr2 : RegIdx) : Statement (.addReg dr sr1 ign sr2) := fun _ => by
  rw [decode_addReg] <;> simp [encode, field_or, field_place_same, field_place_disjoint]

theorem RoundTrip.addImm (dr : RegIdx) (sr1 : RegIdx) (imm5 : BitVec 5) : Statement (.addImm dr sr1 imm5) := fun _ => by
  rw [decode_addImm] <;> simp [encode, field_or, field_place_same, field_place_disjoint]

theorem RoundTrip.ld (dr : RegIdx) (off9 : BitVec 9) : Statement (.ld dr off9) := fun _ => by
  rw [decode_ld] <;> simp [encode, field_or, field_place_same, field_place_disjoint]

theorem RoundTrip.andReg (dr : RegIdx) (sr1 : RegIdx) (ign : BitVec 2) (sr2 : RegIdx) : Statement (.andReg dr sr1 ign sr2) := fun _ => by
  rw [decode_andReg] <;> simp [encode, field_or, field_place_same, field_place_disjoint]

theorem RoundTrip.andImm (dr : RegIdx) (sr1 : RegIdx) (imm5 : BitVec 5) : Statement (.andImm dr sr1 imm5) := fun _ => by
  rw [decode_andImm] <;> simp [encode, field_or, field_place_same, field_place_disjoint]

theorem RoundTrip.notReg (dr : RegIdx) (sr : RegIdx) (ign : BitVec 6) : Statement (.notReg dr sr ign) := fun _ => by
  rw [decode_notReg] <;> simp [encode, field_or, field_place_same, field_place_disjoint]

theorem RoundTrip.trapHalt (ign : BitVec 6) : Statement (.trapHalt ign) := fun _ => by
  rw [decode_trapHalt] <;> simp [encode, field_or, field_place_same, field_place_disjoint]

theorem RoundTrip.trapOut (ign : BitVec 6) : Statement (.trapOut ign) := fun _ => by
  rw [decode_trapOut] <;> simp [encode, field_or, field_place_same, field_place_disjoint]

theorem RoundTrip.trapNop (ign vec : BitVec 6) : Statement (.trapNop ign vec) := fun h => by
  have hv : field 0 6 (encode (.trapNop ign vec)) = vec := by
    simp [encode, field_or, field_place_same, field_place_disjoint]
  simp only [Instr.wf, Bool.and_eq_true, decide_eq_true_eq] at h
  rw [decode_trapNop _ (hv.symm ▸ h.1) (hv.symm ▸ h.2)] <;>
    simp [encode, field_or, field_place_same, field_place_disjoint]

theorem RoundTrip.ignored3 (ign : BitVec 12) : Statement (.ignored3 ign) := fun _ => by
  rw [decode_ignored3] <;> simp [encode, field_or, field_place_same, field_place_disjoint]

theorem RoundTrip.ignored4 (ign : BitVec 12) : Statement (.ignored4 ign) := fun _ => by
  rw [decode_ignored4] <;> simp [encode, field_or, field_place_same, field_place_disjoint]

theorem RoundTrip.ignored6 (ign : BitVec 12) : Statement (.ignored6 ign) := fun _ => by
  rw [decode_ignored6] <;> simp [encode, field_or, field_place_same, field_place_disjoint]

theorem RoundTrip.ignored7 (ign : BitVec 12) : Statement (.ignored7 ign) := fun _ => by
  rw [decode_ignored7] <;> simp [encode, field_or, field_place_same, field_place_disjoint]

theorem RoundTrip.ignored8 (ign : BitVec 12) : Statement (.ignored8 ign) := fun _ => by
  rw [decode_ignored8] <;> simp [encode, field_or, field_place_same, field_place_disjoint]

theorem RoundTrip.ignored10 (ign : BitVec 12) : Statement (.ignored10 ign) := fun _ => by
  rw [decode_ignored10] <;> simp [encode, field_or, field_place_same, field_place_disjoint]

theorem RoundTrip.ignored11 (ign : BitVec 12) : Statement (.ignored11 ign) := fun _ => by
  rw [decode_ignored11] <;> simp [encode, field_or, field_place_same, field_place_disjoint]

theorem RoundTrip.ignored12 (ign : BitVec 12) : Statement (.ignored12 ign) := fun _ => by
  rw [decode_ignored12] <;> simp [encode, field_or, field_place_same, field_place_disjoint]

theorem RoundTrip.ignored13 (ign : BitVec 12) : Statement (.ignored13 ign) := fun _ => by
  rw [decode_ignored13] <;> simp [encode, field_or, field_place_same, field_place_disjoint]

theorem RoundTrip.ignored14 (ign : BitVec 12) : Statement (.ignored14 ign) := fun _ => by
  rw [decode_ignored14] <;> simp [encode, field_or, field_place_same, field_place_disjoint]

end Sys2Proof.Laws
end

