-- ==== Sys2Proof/Laws/Step.lean ====
section
/-!
SUPPORT. What a step can do, said once per kind of step.
-/
namespace Sys2Proof.Machine

/-- The state a completed fetch and increment leave (R70, R71). -/
abbrev State.fetched (s : State) : State := (s.setIr (s.mem.read (uval s.pc))).setPc (incrementByOne s.pc)

theorem step_fetched {s : State} (hr : s.status = .running) (hp : uval s.pc < Config.memSize) :
    step s = exec (decode (s.mem.read (uval s.pc))) s.fetched := by
  simp only [step, hr, fetch_ok hp]
  rfl

theorem step_fetchError {s : State} (hr : s.status = .running) (hp : ¬ uval s.pc < Config.memSize) :
    step s = .next (s.raiseInRun { cause := .oorFetch, addr := uval s.pc }) := by
  simp only [step, hr, fetch_error hp]

theorem step_host {s : State} (hr : s.status ≠ .running) : step s = hostStep s := by
  unfold step
  split
  · contradiction
  · rfl
  · rfl
  · rfl

/-- Everything a step of a run can do: it always answers a next state, and that state is one of these. -/
theorem step_running_cases {s : State} (hr : s.status = .running) :
    (¬ uval s.pc < Config.memSize ∧ step s = .next (s.raiseInRun { cause := .oorFetch, addr := uval s.pc })) ∨
    (uval s.pc < Config.memSize ∧
      ((step s = .next s.fetched) ∨
      (∃ nzp off9, decode (s.mem.read (uval s.pc)) = .br nzp off9 ∧ branchTaken nzp s.cc = true ∧
        step s = .next (s.fetched.setPc (branchTarget s.fetched.pc off9))) ∨
      (∃ dr v, step s = .next (s.fetched.writeResult dr v)) ∨
      (∃ ign, decode (s.mem.read (uval s.pc)) = .trapHalt ign ∧ step s = .next s.fetched.haltRun) ∨
      (∃ ign, decode (s.mem.read (uval s.pc)) = .trapOut ign ∧
        step s = .next (s.fetched.pushOutput (lowByte (s.getReg 0)))) ∨
      (∃ dr off9, decode (s.mem.read (uval s.pc)) = .ld dr off9 ∧
        ¬ addressExists (loadAddress s.fetched.pc off9) ∧
        step s = .next (s.fetched.raiseInRun { cause := .oorLd, addr := loadAddress s.fetched.pc off9 })))) := by
  by_cases hp : uval s.pc < Config.memSize
  · rw [step_fetched hr hp]
    exact .inr ⟨hp, exec_cases _ s.fetched⟩
  · exact .inl ⟨hp, step_fetchError hr hp⟩

/-- A step of a run always answers a next state. -/
theorem step_running_next {s : State} (hr : s.status = .running) : ∃ t, step s = .next t := by
  rcases step_running_cases hr with ⟨-, h⟩ | ⟨-, h | ⟨_, _, -, -, h⟩ | ⟨_, _, h⟩ | ⟨_, -, h⟩ | ⟨_, -, h⟩ | ⟨_, _, -, -, h⟩⟩ <;>
    exact ⟨_, h⟩

theorem runSteps_succ_running {s t : State} {k : Nat} (hr : s.status = .running) (h : step s = .next t) :
    runSteps (k + 1) s = runSteps k t := by
  simp only [runSteps, hr, h]

theorem runSteps_of_not_running {s : State} (k : Nat) (hr : s.status ≠ .running) : runSteps k s = s := by
  cases k with
  | zero => rfl
  | succ k =>
    unfold runSteps
    split
    · contradiction
    · rfl

end Sys2Proof.Machine
end

