-- ==== Sys2Proof/Tests/Slice0.lean ====
section
/-!
SUPPORT. The model's own tests, each against a word, a table or a vector of the spec ("V-…" and "§2.x" are those of
95_test_vectors.md), and the witnesses: for each statement of Obligations.lean with hypotheses, a concrete state and operands
that meet them together, at the ends of their ranges where the clauses have one.
-/
namespace Sys2Proof.Tests

open Sys2Proof.Machine Sys2Proof.Claims

/-! ## Helpers -/

/-- Power-on, with a run in progress, `pc` and the listed cells. -/
def running (pc : Word) (cells : Memory) : State := { State.reset with status := .running, pc := pc, mem := cells }

/-- Power-on, with the host's next command. -/
def given (c : HostCommand) : State := { State.reset with hostQueue := [c] }

/-- The state a step leaves. -/
def after (s : State) : Option State :=
  match step s with
  | .next t => some t
  | .fault _ => none
  | .refused _ => none

/-- One register, `cc` and `pc` after a step. -/
def shown (s : State) (r : RegIdx) : Option (Word × CondCode × Word) := (after s).map fun t => (t.getReg r, t.cc, t.pc)

/-! ## Well-formedness: the one check refuses an ill-formed term for each of the two vectors -/

theorem test_wf_refuses_halt_vector : Instr.wf (.trapNop 0 0x25) = false := by decide

theorem test_wf_refuses_out_vector : Instr.wf (.trapNop 0 0x21) = false := by decide

/-! ## Decoding: a word of each constructor, written out from the formats R55 to R61 -/

theorem test_decode_br : decode 0b0000101100000011#16 = .br 0b101 0b100000011 := by decide
theorem test_decode_addReg : decode 0b0001001010011011#16 = .addReg 1 2 0b11 3 := by decide
theorem test_decode_addImm : decode 0b0001110101110000#16 = .addImm 6 5 0b10000 := by decide
theorem test_decode_ld : decode 0b0010100111111110#16 = .ld 4 0b111111110 := by decide
theorem test_decode_andReg : decode 0b0101001010000011#16 = .andReg 1 2 0 3 := by decide
theorem test_decode_andImm : decode 0b0101110101101111#16 = .andImm 6 5 0b01111 := by decide
theorem test_decode_notReg : decode 0b1001100101000000#16 = .notReg 4 5 0 := by decide
theorem test_decode_trapHalt : decode 0b1111111100100101#16 = .trapHalt 0b111100 := by decide
theorem test_decode_trapOut : decode 0b1111000011100001#16 = .trapOut 0b000011 := by decide
theorem test_decode_trapNop : decode 0b1111000000111111#16 = .trapNop 0 0x3F := by decide
theorem test_decode_ignored3 : decode 0b0011100000000001#16 = .ignored3 0x801 := by decide
theorem test_decode_ignored4 : decode 0b0100100000000001#16 = .ignored4 0x801 := by decide
theorem test_decode_ignored6 : decode 0b0110100000000001#16 = .ignored6 0x801 := by decide
theorem test_decode_ignored7 : decode 0b0111100000000001#16 = .ignored7 0x801 := by decide
theorem test_decode_ignored8 : decode 0b1000100000000001#16 = .ignored8 0x801 := by decide
theorem test_decode_ignored10 : decode 0b1010100000000001#16 = .ignored10 0x801 := by decide
theorem test_decode_ignored11 : decode 0b1011100000000001#16 = .ignored11 0x801 := by decide
theorem test_decode_ignored12 : decode 0b1100100000000001#16 = .ignored12 0x801 := by decide
theorem test_decode_ignored13 : decode 0b1101100000000001#16 = .ignored13 0x801 := by decide
theorem test_decode_ignored14 : decode 0b1110100000000001#16 = .ignored14 0x801 := by decide

theorem test_encode_halt : encode (.trapHalt 0) = 0xF025#16 := by decide
theorem test_encode_not : encode (.notReg 4 5 0b111111) = 0x997F#16 := by decide
theorem test_tableWord : decodeTableWord 16 0x12A3 = some (.addImm 1 2 3) := by decide

/-! ## The condition code and the datapath -/

/-- §2.1. -/
theorem test_setcc :
    [0x0000#16, 0x0001#16, 0x7FFF#16, 0x8000#16, 0xFFFF#16, 0xFFFA#16].map setcc =
      [0b010#3, 0b001#3, 0b001#3, 0b100#3, 0b100#3, 0b100#3] := by decide

/-- §2.3, the columns 000, 100, 010, 001 of each row. -/
theorem test_branch_table :
    [0#3, 1#3, 2#3, 3#3, 4#3, 5#3, 6#3, 7#3].map (fun nzp => [0b000#3, 0b100#3, 0b010#3, 0b001#3].map (branchTaken nzp)) =
      [[false, false, false, false], [false, false, false, true], [false, false, true, false], [false, false, true, true],
        [false, true, false, false], [false, true, false, true], [false, true, true, false], [false, true, true, true]] := by
  decide

/-- §2.2: slice(7,9) and slice(11,5) read signed, slice(10,6) unsigned. -/
theorem test_slices :
    (docSlice 7 9 0x0FFF#16).map sval = some (-1) ∧ (docSlice 11 5 0x12B0#16).map sext16 = some 0xFFF0#16 ∧
    (docSlice 10 6 0xFF25#16).map uval = some 0x25 ∧ docSlice 8 9 0#16 = none := by decide

/-- §2.2. -/
theorem test_setSigned :
    setSigned (-1) = some 0xFFFF#16 ∧ setSigned (-16) = some 0xFFF0#16 ∧ setSigned 15 = some 0x000F#16 ∧
    setSigned 32768 = none ∧ setUnsigned 65535 = some 0xFFFF#16 ∧ setUnsigned 65536 = none := by decide

/-! ## One step of each instruction -/

/-- V-ADD-2: the sum wraps to a negative. -/
theorem test_addReg_wraps :
    shown (((running 0 [(0, 0x1283)]).setReg 2 0x7FFF).setReg 3 0x0001) 1 = some (0x8000, 0b100, 1) := by decide
/-- V-ADD-7: the destination is both sources. -/
theorem test_addReg_doubles : shown ((running 0 [(0, 0x1904)]).setReg 4 0x4000) 4 = some (0x8000, 0b100, 1) := by decide
/-- V-ADD-9. -/
theorem test_addImm_negative : shown (running 0 [(0, 0x12B0)]) 1 = some (0xFFF2, 0b100, 1) := by decide
/-- V-ADD-12. -/
theorem test_addImm_wraps : shown ((running 0 [(0, 0x127F)]).setReg 1 0x8000) 1 = some (0x7FFF, 0b001, 1) := by decide
/-- V-AND-2. -/
theorem test_andReg :
    shown (((running 0 [(0, 0x5283)]).setReg 2 0x8001).setReg 3 0xF00F) 1 = some (0x8001, 0b100, 1) := by decide
/-- V-AND-7: the immediate is sign-extended. -/
theorem test_andImm_extends : shown ((running 0 [(0, 0x52B0)]).setReg 2 0xFFFF) 1 = some (0xFFF0, 0b100, 1) := by decide
/-- V-AND-8. -/
theorem test_andImm_positive : shown ((running 0 [(0, 0x52AF)]).setReg 2 0xFFFF) 1 = some (0x000F, 0b001, 1) := by decide
/-- V-NOT-6: the destination is the source. -/
theorem test_not_in_place : shown (running 0 [(0, 0x96FF)]) 3 = some (0xFFFC, 0b100, 1) := by decide
/-- V-NOT-7: the ignored bits need not be ones. -/
theorem test_not_ignored_bits : shown (running 0 [(0, 0x9280)]) 1 = some (0xFFFD, 0b100, 1) := by decide
/-- V-LD-10: the highest address. -/
theorem test_ld_highest : shown (running 0 [(0, 0x2230), (49, 0xBEEF)]) 1 = some (0xBEEF, 0b100, 1) := by decide
/-- V-LD-9: a negative effective address. -/
theorem test_ld_faults :
    (after (running 49 [(49, 0x2300)])).map (fun t => (t.getReg 1, t.cc, t.pc, t.status, t.faultRecord)) =
      some (0x0001, 0b000, 50, .faulted, some { cause := .oorLd, addr := -206 }) := by decide
/-- V-BR-8: the target wraps. -/
theorem test_br_wraps :
    shown ((running 1 [(1, 0x07FD)]).setCc 0b001) 0 = some (0, 0b001, 0xFFFF) := by decide
/-- V-BR-2: no branch is taken while `cc` is 000. -/
theorem test_br_not_taken : shown (running 0 [(0, 0x0E01)]) 0 = some (0, 0b000, 1) := by decide
/-- V-TRAP-2. -/
theorem test_halt :
    (after (running 0 [(0, 0xFF25)])).map (fun t => (t.pc, t.status, t.replies)) =
      some (1, .halted, [.runReturned]) := by decide
/-- V-TRAP-3. -/
theorem test_out :
    (after ((running 0 [(0, 0xF021)]).setReg 0 0x1241)).map (fun t => (t.getReg 0, t.output, t.status)) =
      some (0x1241, [0x41], .running) := by decide
/-- V-TRAP-6. -/
theorem test_trap_other : shown ((running 0 [(0, 0xF020)]).setCc 0b010) 7 = some (7, 0b010, 1) := by decide
/-- V-IGN-3 to V-IGN-14. -/
theorem test_ignored :
    [0x3FFF, 0x4FFF, 0x6FFF, 0x7FFF, 0x8FFF, 0xAFFF, 0xBFFF, 0xCFFF, 0xDFFF, 0xEFFF].map
      (fun w => shown ((running 0 [(0, w)]).setCc 0b100) 7) = List.replicate 10 (some (7, 0b100, 1)) := by decide

/-! ## Fetch and the host's commands -/

/-- The first step after power-on with a word placed runs that word. -/
theorem test_withFetchWord :
    (after (State.reset.withFetchWord 16 0xF025)).map (fun t => (t.ir, t.pc, t.status)) = some (0xF025, 1, .halted) := by
  decide
/-- Where `pc` is outside the memory the word is placed at 0. -/
theorem test_withFetchWord_moves_pc :
    (after ((running 50 []).withFetchWord 16 0x12A3)).map (fun t => (t.getReg 1, t.pc)) = some (5, 1) := by decide

/-- V-FETCH-1. -/
theorem test_fetch_highest : (after (running 49 [])).map (fun t => (t.ir, t.pc)) = some (0x0000, 50) := by decide
/-- V-FETCH-3. -/
theorem test_fetch_faults :
    (after (running 0xFFFF [])).map (fun t => (t.pc, t.ir, t.status, t.faultRecord)) =
      some (0xFFFF, 0, .faulted, some { cause := .oorFetch, addr := 65535 }) := by decide
/-- V-HOST-1. -/
theorem test_loadWord : (after (given (.loadWord 49 0xABCD))).map (fun t => (t.mem, t.replies)) = some ([(49, 0xABCD)], [.done]) := by
  decide
/-- V-HOST-3. -/
theorem test_loadWord_raises :
    (after (given (.loadWord (-1) 1))).map (fun t => (t.mem, t.status, t.faultRecord, t.replies)) =
      some ([], .idle, none, [.error { cause := .oorHostLoad, addr := -1 }]) := by decide
/-- V-HOST-5. -/
theorem test_setMemoryCell : (after (given (.setMemoryCell 3 (-32768)))).map (·.mem) = some [(3, 0x8000)] := by decide
/-- V-HOST-7. -/
theorem test_setMemoryCell_refuses : step (given (.setMemoryCell 0 40000)) = .refused (.setMemoryCellValue 40000) := by rfl
/-- V-HOST-8. -/
theorem test_getMemoryCell_raises :
    (after (given (.getMemoryCell 50))).map (·.replies) = some [.error { cause := .oorHostGet, addr := 50 }] := by decide
/-- V-HOST-9. -/
theorem test_getRegisters : (after (given .getRegisters)).map (·.replies) = some [.registers #v[0, 1, 2, 3, 4, 5, 6, 7]] := by decide
/-- V-HOST-10. -/
theorem test_reset :
    (after ({ given .reset with mem := [(7, 0x5555)], pc := 9, ir := 0xF025, cc := 0b100 }.setReg 3 0x1234)).map
      (fun t => (t.getReg 3, t.mem, t.pc, t.ir, t.cc)) = some (3, [], 9, 0xF025, 0b100) := by decide
/-- V-HOST-11. -/
theorem test_run_refused : step ((given .run).setStatus .faulted) = .refused .runAfterFault := by rfl

/-! ## Witnesses -/

theorem witness_DecodeUndoesEncode : Instr.wf (.trapNop 0b111111 0x3F) = true ∧ Instr.wf (.trapNop 0 0) = true := by decide

theorem witness_Fetches_lowest : Fetches (running 0 [(0, 0x1283)]) 0x1283 := ⟨rfl, by decide, rfl⟩
theorem witness_Fetches_highest : Fetches (running 49 []) 0 := ⟨rfl, by decide, rfl⟩

theorem witness_StepRunsTheDecodedInstruction : Fetches (running 49 [(49, 0xF025)]) 0xF025 := ⟨rfl, by decide, rfl⟩

theorem witness_FetchOutOfRangeFaults :
    (running 50 []).status = .running ∧ 50 ≤ (running 50 []).pc.toNat ∧ 50 ≤ (running 0xFFFF []).pc.toNat := by decide

theorem witness_StepOfARunEndsInOneOfThreeWays : (running 0 []).status = .running := rfl

theorem witness_WithFetchWordIsRunNext : State.reset.mem.wf = true ∧ (running 50 [(0, 1), (49, 2)]).mem.wf = true := by decide

theorem witness_AddRegisterResultAndFrame : 0x129B#16 &&& 0xF020#16 = 0x1000#16 := by decide
theorem witness_AddIsTheUnsignedSumToo : ∃ t, exec (.addReg 1 2 0 3) (running 1 []) = .next t := ⟨_, rfl⟩
theorem witness_AddImmediateResultAndFrame : 0x12A3#16 &&& 0xF020#16 = 0x1020#16 := by decide
theorem witness_AndRegisterResultAndFrame : 0x5283#16 &&& 0xF020#16 = 0x5000#16 := by decide
theorem witness_AndImmediateResultAndFrame : 0x5B60#16 &&& 0xF020#16 = 0x5020#16 := by decide
theorem witness_NotResultAndFrame : 0x997F#16 &&& 0xF000#16 = 0x9000#16 := by decide

theorem witness_LoadInRangeResultAndFrame_word : 0x2204#16 &&& 0xF000#16 = 0x2000#16 := by decide
theorem witness_LoadInRangeResultAndFrame_lowest :
    ((running 1 []).pc.toNat : Int) + (0x1FF#9).toInt = ((0 : Nat) : Int) ∧ 0 < 50 := by decide
theorem witness_LoadInRangeResultAndFrame_highest :
    ((running 1 []).pc.toNat : Int) + (48#9).toInt = ((49 : Nat) : Int) ∧ 49 < 50 := by decide
theorem witness_LoadOutOfRangeFaults_below :
    ((running 1 []).pc.toNat : Int) + (0x1FE#9).toInt = -1 ∧ ((-1 : Int) < 0 ∨ (50 : Int) ≤ -1) := by decide
theorem witness_LoadOutOfRangeFaults_above :
    ((running 50 []).pc.toNat : Int) + (0#9).toInt = 50 ∧ ((50 : Int) < 0 ∨ (50 : Int) ≤ 50) := by decide
theorem witness_WrappedLoadCheckAgrees : (50#16).toNat ≤ 50 := by decide

theorem witness_BranchEffectAndFrame_word : 0x0E01#16 &&& 0xF000#16 = 0x0000#16 := by decide
theorem witness_BranchEffectAndFrame_taken :
    ∃ k, k < 3 ∧ (0b100#3).getLsbD k = true ∧ ((running 0 []).setCc 0b100).cc.getLsbD k = true := ⟨2, by decide⟩
theorem witness_BranchEffectAndFrame_notTaken :
    ∀ k, k < 3 → ¬ ((0b111#3).getLsbD k = true ∧ (running 0 []).cc.getLsbD k = true) := by decide
theorem witness_BranchOffsetIsFromTheIncrementedPc :
    Fetches ((running 1 [(1, 0x03FE)]).setCc 0b001) 0x03FE ∧ 0x03FE#16 &&& 0xF000#16 = 0x0000#16 ∧ 0 < 3 ∧
    (0x03FE#16).getLsbD (9 + 0) = true ∧ ((running 1 [(1, 0x03FE)]).setCc 0b001).cc.getLsbD 0 = true ∧
    0 ≤ (((running 1 [(1, 0x03FE)]).setCc 0b001).pc.toNat : Int) + 1 + ((0x03FE#16).extractLsb' 0 9).toInt :=
  ⟨⟨rfl, by decide, rfl⟩, by decide⟩
theorem witness_BranchToItselfHangs_anyMask :
    Fetches ((running 49 [(49, 0x05FF)]).setCc 0b010) 0x05FF#16 ∧ 0x05FF#16 &&& 0xF1FF#16 = 0x01FF#16 ∧
    (0x05FF#16).extractLsb' 9 3 &&& ((running 49 [(49, 0x05FF)]).setCc 0b010).cc ≠ 0b000#3 :=
  ⟨⟨rfl, by decide, rfl⟩, by decide⟩
theorem witness_BranchToItselfHangs :
    Fetches ((running 1 [(1, 0x0FFF)]).setCc 0b001) 0x0FFF#16 ∧ ((running 1 [(1, 0x0FFF)]).setCc 0b001).cc ≠ 0b000#3 :=
  ⟨⟨rfl, by decide, rfl⟩, by decide⟩

theorem witness_HaltEffectAndFrame_step : Fetches (running 49 [(49, 0xFF25)]) 0xFF25 ∧ 0xFF25#16 &&& 0xF03F#16 = 0xF025#16 :=
  ⟨⟨rfl, by decide, rfl⟩, by decide⟩
theorem witness_HaltEffectAndFrame_run :
    ((given .run).setStatus .halted).status = .halted ∧ ((given .run).setStatus .halted).hostQueue = .run :: [] := ⟨rfl, rfl⟩
theorem witness_OutEffectAndFrame : 0xF0E1#16 &&& 0xF03F#16 = 0xF021#16 := by decide
theorem witness_OtherTrapVectorsDoNothing :
    Fetches (running 0 [(0, 0xF020)]) 0xF020 ∧ 0xF020#16 &&& 0xF000#16 = 0xF000#16 ∧
    (0xF020#16).extractLsb' 0 6 ≠ 0x25#6 ∧ (0xF020#16).extractLsb' 0 6 ≠ 0x21#6 :=
  ⟨⟨rfl, by decide, rfl⟩, by decide⟩
theorem witness_IgnoredOpcodesDoNothing_words :
    0x3FFF#16 &&& 0xF000#16 = 0x3000#16 ∧ 0x4FFF#16 &&& 0xF000#16 = 0x4000#16 ∧ 0x6FFF#16 &&& 0xF000#16 = 0x6000#16 ∧
    0x7FFF#16 &&& 0xF000#16 = 0x7000#16 ∧ 0x8FFF#16 &&& 0xF000#16 = 0x8000#16 ∧ 0xAFFF#16 &&& 0xF000#16 = 0xA000#16 ∧
    0xBFFF#16 &&& 0xF000#16 = 0xB000#16 ∧ 0xCFFF#16 &&& 0xF000#16 = 0xC000#16 ∧ 0xDFFF#16 &&& 0xF000#16 = 0xD000#16 ∧
    0xEFFF#16 &&& 0xF000#16 = 0xE000#16 := by decide
theorem witness_IgnoredOpcodesDoNothing_step :
    Fetches (running 0 [(0, 0xE000)]) 0xE000 ∧
    (0xE000#16).extractLsb' 12 4 ∈ [3#4, 4#4, 6#4, 7#4, 8#4, 10#4, 11#4, 12#4, 13#4, 14#4] :=
  ⟨⟨rfl, by decide, rfl⟩, by decide⟩

theorem witness_OnlyResultInstructionsWriteCc_result :
    (∃ t, exec (.ld 1 4) (running 1 [(5, 10)]) = .next t) ∧ dest (.ld 1 4) = some 1 ∧
    ¬ LdOutside (.ld 1 4) (running 1 [(5, 10)]) := by
  refine ⟨⟨_, rfl⟩, rfl, ?_⟩
  rintro ⟨dr, off9, hi, h⟩
  cases hi
  revert h
  decide
theorem witness_OnlyResultInstructionsWriteCc_other :
    (∃ t, exec (.ld 1 0x1FE) (running 1 []) = .next t) ∧
    (dest (.ld 1 0x1FE) = none ∨ LdOutside (.ld 1 0x1FE) (running 1 [])) :=
  ⟨⟨_, rfl⟩, .inr ⟨1, 0x1FE, rfl, by decide⟩⟩
theorem witness_OnlyResultInstructionsWriteCc_none :
    (∃ t, exec (.br 7 4) (running 1 []) = .next t) ∧ dest (.br 7 4) = none := ⟨⟨_, rfl⟩, rfl⟩
theorem witness_OnlyResultInstructionsWriteCc_host :
    (given .reset).status ≠ .running ∧ ∃ t, step (given .reset) = .next t := ⟨by decide, _, rfl⟩

theorem witness_OnlyTheDestinationRegisterChanges :
    (∃ t, exec (.addImm 1 2 3) (running 1 []) = .next t) ∧ dest (.addImm 1 2 3) ≠ some 7 ∧
    (given .reset).status ≠ .running ∧ ∃ t, step (given .reset) = .next t := ⟨⟨_, rfl⟩, by decide, by decide, _, rfl⟩
theorem witness_UnreadRegistersHaveNoInfluence :
    7#3 ∉ sources (.addReg 1 2 0 3) ∧ 1#3 ∉ sources (.addReg 1 2 0 3) ∧
    ∃ t, exec (.addReg 1 2 0 3) (running 1 []) = .next t := ⟨by decide, by decide, _, rfl⟩

theorem witness_OnlyIncrementAndBranchWritePc :
    (∃ t, step (running 49 []) = .next t) ∧ Fetches (running 49 []) 0 ∧
    (∃ t, step (running 50 []) = .next t) ∧ 50 ≤ (running 50 []).pc.toNat ∧
    (∃ t, step (given .reset) = .next t) ∧ (given .reset).status ≠ .running :=
  ⟨⟨_, rfl⟩, ⟨rfl, by decide, rfl⟩, ⟨_, rfl⟩, by decide, ⟨_, rfl⟩, by decide⟩
theorem witness_OnlyTheFetchWritesIr :
    (∃ t, step (running 49 [(49, 0x3000)]) = .next t) ∧ Fetches (running 49 [(49, 0x3000)]) 0x3000 ∧
    (∃ t, step (running 50 []) = .next t) ∧ 50 ≤ (running 50 []).pc.toNat :=
  ⟨⟨_, rfl⟩, ⟨rfl, by decide, rfl⟩, ⟨_, rfl⟩, by decide⟩
theorem witness_OnlyTheHostWritesMemory :
    (given (.loadWord 49 1)).mem.wf = true ∧
    ∃ t, step (given (.loadWord 49 1)) = .next t ∧ t.mem.read 49 ≠ (given (.loadWord 49 1)).mem.read 49 :=
  ⟨rfl, _, rfl, by decide⟩
theorem witness_OnlyOutAppendsToTheStream : ∃ t, step (running 0 [(0, 0xF021)]) = .next t := ⟨_, rfl⟩
theorem witness_ARunCannotReadItsOutput :
    (running 0 [(0, 0xF021)]).status = .running ∧ ∃ t, step (running 0 [(0, 0xF021)]) = .next t := ⟨rfl, _, rfl⟩

theorem witness_RunStartsFromTheStateAsItIs :
    ((given .run).status = .idle ∨ (given .run).status = .halted) ∧ (given .run).hostQueue = .run :: [] := ⟨.inl rfl, rfl⟩
theorem witness_FirstRunFetchesAddressZero :
    (given .run).Inv ∧ (given .run).status = .idle ∧ (given .run).hostQueue = .run :: [] where
  left :=
    { memWf := rfl
      cc := .inl rfl
      idle := fun _ => ⟨rfl, rfl, rfl, rfl, rfl⟩
      record := by decide
      recordRange := fun _ h => nomatch h
      halted := fun h => nomatch h }
  right := ⟨rfl, rfl⟩
theorem witness_HaltIsTheOnlyNormalEnd :
    (running 0 [(0, 0xF025)]).status = .running ∧ ∃ t, step (running 0 [(0, 0xF025)]) = .next t ∧ t.status = .halted :=
  ⟨rfl, _, rfl, rfl⟩
theorem witness_OnlyRangeErrorsFaultARun :
    (running 0 [(0, 0x23FE)]).status = .running ∧ ∃ t, step (running 0 [(0, 0x23FE)]) = .next t ∧ t.status = .faulted :=
  ⟨rfl, _, rfl, rfl⟩
theorem witness_FaultedIsSticky :
    ((given .run).setStatus .faulted).status = .faulted ∧ ((given .run).setStatus .faulted).hostQueue = .run :: [] ∧
    ((given .readStatus).setStatus .faulted).hostQueue = .readStatus :: [] ∧
    ∃ t, step ((given .reset).setStatus .faulted) = .next t := ⟨rfl, rfl, rfl, _, rfl⟩
theorem witness_FaultedIsSticky_accepted :
    ((given (.setMemoryCell 0 (-32768))).setStatus .faulted).hostQueue = .setMemoryCell 0 (-32768) :: [] ∧
    HostCommand.setMemoryCell 0 (-32768) ≠ .run ∧
    ∀ addr v : Int, HostCommand.setMemoryCell 0 (-32768) = .setMemoryCell addr v → -32768 ≤ v ∧ v ≤ 32767 :=
  ⟨rfl, by decide, fun _ _ h => by cases h; decide⟩
theorem witness_FaultedIsSticky_asInIdle :
    ((given (.getMemoryCell 50)).setStatus .faulted).hostQueue = .getMemoryCell 50 :: [] ∧
    HostCommand.getMemoryCell 50 ≠ .run ∧ HostCommand.getMemoryCell 50 ≠ .readStatus ∧
    ∃ t, step (given (.getMemoryCell 50)) = .next t := ⟨rfl, by decide, by decide, _, rfl⟩
theorem witness_OnlyRunLeavesHalted :
    (State.reset.setStatus .halted).status = .halted ∧ (State.reset.setStatus .halted).hostQueue = [] ∧
    ∃ t, step ((given .run).setStatus .halted) = .next t ∧ t.status ≠ .halted := ⟨rfl, rfl, _, rfl, by decide⟩
theorem witness_EveryRunHasExactlyOneEnd : (running 0 [(0, 0xF025)]).status = .running := rfl
theorem witness_ARunKeepsMemoryAndHost : (running 49 []).status = .running := rfl

theorem witness_PowerOnAndResetValues : Gives (given .reset) .reset [] := ⟨by decide, rfl⟩
theorem witness_ResetCommandLeavesTheRest : Gives ((given .reset).setStatus .faulted) .reset [] := ⟨by decide, rfl⟩
theorem witness_LoadWordReplacesOneCell_highest :
    (given (.loadWord 49 1)).mem.wf = true ∧ Gives (given (.loadWord 49 1)) (.loadWord 49 1) [] ∧
    (49 : Int) = (49 : Nat) ∧ 49 < 50 := ⟨rfl, ⟨by decide, rfl⟩, by decide⟩
theorem witness_LoadWordReplacesOneCell_raises :
    Gives (given (.loadWord 50 1)) (.loadWord 50 1) [] ∧ Gives (given (.loadWord (-1) 1)) (.loadWord (-1) 1) [] ∧
    ((50 : Int) < 0 ∨ (50 : Int) ≤ 50) ∧ ((-1 : Int) < 0 ∨ (50 : Int) ≤ -1) :=
  ⟨⟨by decide, rfl⟩, ⟨by decide, rfl⟩, by decide⟩
theorem witness_SetMemoryCellStoresTheSignedValue :
    (given (.setMemoryCell 49 (-32768))).mem.wf = true ∧
    Gives (given (.setMemoryCell 49 (-32768))) (.setMemoryCell 49 (-32768)) [] ∧
    Gives (given (.setMemoryCell 50 32767)) (.setMemoryCell 50 32767) [] ∧
    Gives (given (.setMemoryCell 0 32768)) (.setMemoryCell 0 32768) [] ∧
    ((-32768 : Int) ≤ -32768 ∧ (-32768 : Int) ≤ 32767) ∧ ((-32768 : Int) ≤ 32767 ∧ (32767 : Int) ≤ 32767) ∧
    ¬ ((-32768 : Int) ≤ 32768 ∧ (32768 : Int) ≤ 32767) :=
  ⟨rfl, ⟨by decide, rfl⟩, ⟨by decide, rfl⟩, ⟨by decide, rfl⟩, by decide⟩
theorem witness_ObservationsChangeNothing :
    Gives (given (.getMemoryCell 49)) (.getMemoryCell 49) [] ∧ 49 < 50 ∧
    Gives (given (.getMemoryCell 50)) (.getMemoryCell 50) [] ∧ Gives (given .readPc) .readPc [] ∧
    (HostCommand.readPc, HostReply.pc (given .readPc).pc) ∈ [(HostCommand.readPc, HostReply.pc (given .readPc).pc)] :=
  ⟨⟨by decide, rfl⟩, by decide, ⟨by decide, rfl⟩, ⟨by decide, rfl⟩, List.mem_singleton.2 rfl⟩

theorem witness_ReadingsOfABitVector : 0 < 16 ∧ 0 < 1 := by decide
theorem witness_SliceTakesTheDocumentsDigits : 7 + 9 ≤ 16 ∧ 0 + 4 ≤ 16 := by decide
theorem witness_AssignmentsRoundTrip : (-32768 : Int) ≤ -32768 ∧ (-32768 : Int) ≤ 32767 ∧ (32767 : Int) ≤ 32767 := by decide
theorem witness_MemReadChecksTheRange :
    (49 : Int) = (49 : Nat) ∧ 49 < 50 ∧ ((-1 : Int) < 0 ∨ (50 : Int) ≤ -1) ∧ ((50 : Int) < 0 ∨ (50 : Int) ≤ 50) := by decide

theorem witness_EveryStepKeepsTheInvariant : (given .run).Inv ∧ ∃ t, step (given .run) = .next t :=
  ⟨witness_FirstRunFetchesAddressZero.1, _, rfl⟩

end Sys2Proof.Tests
end

section
/-!
PROOF. The two readings of a bit vector (00_scope.md R8): the weighted digits below position `m` sum to the unsigned reading
modulo 2^m, and the signed reading takes the weight 2^n off where digit n - 1 is set.
-/
namespace Sys2Proof.Machine

/-- The digit at position `k`, cut out of the unsigned reading, carries the weight 2^k. -/
theorem weight_mul_digit {n : Nat} (v : BitVec n) (k : Nat) :
    2 ^ k * (uval v / 2 ^ k % 2) = if v.getLsbD k then 2 ^ k else 0 := by
  rw [← Nat.toNat_testBit, BitVec.testBit_toNat]
  cases v.getLsbD k <;> simp

/-- R8's sum, cut off after the `m` lowest digits. -/
theorem sum_low_digits {n : Nat} (v : BitVec n) (m : Nat) :
    ((List.range m).map fun k => if v.getLsbD k then (2 : Int) ^ k else 0).sum = (uval v % 2 ^ m : Nat) := by
  induction m with
  | zero => simp [Nat.mod_one]
  | succ m ih =>
    rw [List.sum_range_succ, ih, Nat.mod_pow_succ, weight_mul_digit]
    simp

theorem uval_eq_sum_digits {n : Nat} (v : BitVec n) :
    (uval v : Int) = ((List.range n).map fun k => if v.getLsbD k then (2 : Int) ^ k else 0).sum := by
  rw [sum_low_digits, Nat.mod_eq_of_lt v.isLt]

theorem uval_le {n : Nat} (v : BitVec n) : (uval v : Int) ≤ 2 ^ n - 1 := by
  have h : (uval v : Int) < 2 ^ n := by exact_mod_cast v.isLt
  omega

theorem sval_eq_uval_sub {n : Nat} (v : BitVec n) :
    sval v = uval v - (if v.getLsbD (n - 1) then (2 : Int) ^ n else 0) := by
  rw [sval, BitVec.toInt_eq_msb_cond, BitVec.msb_eq_getLsbD_last]
  split <;> simp

theorem sval_range {n : Nat} (v : BitVec n) : -2 ^ (n - 1) ≤ sval v ∧ sval v ≤ 2 ^ (n - 1) - 1 :=
  ⟨BitVec.le_toInt v, Int.le_sub_one_of_lt BitVec.toInt_lt⟩

/-- Settles O48, from the sum of the low digits taken at the full width. -/
theorem readingsOfABitVector : Obligations.ReadingsOfABitVector :=
  fun _ v _ => ⟨uval_eq_sum_digits v, uval_le v, sval_eq_uval_sub v, sval_range v⟩

end Sys2Proof.Machine
end

section
/-!
PROOF. The bit-vector datapath (10_state.md R32 to R38): slices, wrapped sums, the assignments and the raw digits.
-/
namespace Sys2Proof.Machine

/-! ## Slices (R32) -/

theorem docSlice_some {start width : Nat} (v : Word) (h : start + width ≤ 16) :
    docSlice start width v = some (v.extractLsb' (16 - start - width) width) := if_pos h

/-- The spec field `[15-start : 16-start-width]`, numbered from its most significant digit. -/
theorem getMsbD_docField {start width d : Nat} (v : Word) (h : start + width ≤ 16) (hd : d < width) :
    (v.extractLsb' (16 - start - width) width).getMsbD d = v.getMsbD (start + d) := by
  have hlow : 16 - start - width + width - d ≤ 16 := by omega
  have hpos : 16 - (16 - start - width + width - d) = start + d := by omega
  simp [BitVec.getMsbD_extractLsb', hd, hlow, hpos]

/-- Settles O49: the slice is the spec field, whose digits and signed reading are known. -/
theorem sliceTakesTheDocumentsDigits : Obligations.SliceTakesTheDocumentsDigits :=
  fun v _ _ h => ⟨_, docSlice_some v h, fun _ hd => getMsbD_docField v h hd, rfl, sval_eq_uval_sub _⟩

/-! ## Wrapped sums (R37) and the signed round trip (R38) -/

theorem sval_wrap16_range (n : Int) : -32768 ≤ sval (wrap16 n) ∧ sval (wrap16 n) ≤ 32767 :=
  sval_range (wrap16 n)

/-- The signed reading of a wrapped integer is congruent to it; `wrap16_toNat` says so of the unsigned one. -/
theorem sval_wrap16_emod (n : Int) : sval (wrap16 n) % 65536 = n % 65536 := by
  rw [sval, wrap16, BitVec.toInt_ofInt]
  exact Int.bmod_emod

/-- The signed reading of `wrap16 m` is the one integer in the signed range that is congruent to `m`. -/
theorem eq_sval_wrap16_iff (m n : Int) :
    (-32768 ≤ n ∧ n ≤ 32767 ∧ n % 65536 = m % 65536) ↔ n = sval (wrap16 m) := by
  obtain ⟨hlo, hhi⟩ := sval_wrap16_range m
  have hcong := sval_wrap16_emod m
  constructor
  · rintro ⟨h1, h2, h3⟩
    omega
  · rintro rfl
    exact ⟨hlo, hhi, hcong⟩

/-- Settles O51: the unsigned reading is the remainder, and the signed reading is fixed by its range and its congruence. -/
theorem sumsWrapModuloTwoToTheSixteen : Obligations.SumsWrapModuloTwoToTheSixteen :=
  ⟨fun a b => ⟨wrap16_toNat (a + b), eq_sval_wrap16_iff (a + b)⟩, fun _ _ => rfl⟩

theorem setSigned_roundTrip {n : Int} (hlo : -32768 ≤ n) (hhi : n ≤ 32767) :
    ∃ v, setSigned n = some v ∧ sval v = n :=
  ⟨wrap16 n, setSigned_some ⟨hlo, hhi⟩, ((eq_sval_wrap16_iff n n).1 ⟨hlo, hhi, rfl⟩).symm⟩

/-! ## Raw digits (R6, R38) -/

@[simp] theorem getElem_rawDigits (v : Word) (d : Nat) (h : d < 16) : (rawDigits v)[d] = v.getMsbD d := by
  simp [rawDigits]

theorem getMsbD_setRawDigits (ds : Vector Bool 16) {d : Nat} (h : d < 16) : (setRawDigits ds).getMsbD d = ds[d] := by
  have hrev : 15 - (15 - d) = d := by omega
  simp [setRawDigits, BitVec.getMsbD_ofFnLE, h, hrev]

theorem setRawDigits_rawDigits (v : Word) : setRawDigits (rawDigits v) = v :=
  BitVec.eq_of_getMsbD_eq fun d hd => by rw [getMsbD_setRawDigits _ hd, getElem_rawDigits v d hd]

theorem rawDigits_setRawDigits (ds : Vector Bool 16) : rawDigits (setRawDigits ds) = ds :=
  Vector.ext fun d hd => by rw [getElem_rawDigits _ d hd, getMsbD_setRawDigits ds hd]

theorem getElem_rawDigits_andWords (a b : Word) (d : Fin 16) :
    (rawDigits (andWords a b))[d] = ((rawDigits a)[d] && (rawDigits b)[d]) := by
  simp [andWords]

/-- Settles O52: the signed round trip, the two round trips of the raw digits, and AND's digits. -/
theorem assignmentsRoundTrip : Obligations.AssignmentsRoundTrip :=
  ⟨fun _ => setSigned_roundTrip, setRawDigits_rawDigits, rawDigits_setRawDigits, getElem_rawDigits_andWords⟩

/-! ## Inversion and increment (R35, R36) -/

theorem getLsbD_invert (v : Word) {k : Nat} (h : k < 16) : (invert v).getLsbD k = !v.getLsbD k := by
  simp [invert, h]

theorem invert_invert (v : Word) : invert (invert v) = v := BitVec.not_not

theorem uval_incrementByOne (v : Word) : uval (incrementByOne v) = (uval v + 1) % 65536 := by
  rw [incrementByOne_eq]
  exact BitVec.toNat_add v 1

/-- Settles O50: the digits of the inverse, and the increment as a sum modulo 2^16. -/
theorem invertAndIncrement : Obligations.InvertAndIncrement :=
  fun v => ⟨fun _ => getLsbD_invert v, invert_invert v, uval_incrementByOne v, by decide⟩

end Sys2Proof.Machine
end

section
/-!
PROOF. The condition code (10_state.md R21) and who writes it (R22); the registers, `pc` and memory at power-on and after the
reset command (R12, R17, R126).
-/
namespace Sys2Proof.Machine

open Sys2Proof.Claims

/-! ## The condition code of a result (R21) -/

theorem ccFrom_setcc (r : Word) : CcFrom (setcc r) r := by
  rcases setcc_cases r with ⟨hneg, hc⟩ | ⟨rfl, hc⟩ | ⟨hpos, hc⟩ <;> rw [hc]
  · exact ⟨fun _ => rfl, fun h => absurd h hneg.ne, fun h => absurd h hneg.asymm⟩
  · exact ⟨fun h => absurd h (by decide), fun _ => rfl, fun h => absurd h (by decide)⟩
  · exact ⟨fun h => absurd h hpos.asymm, fun h => absurd h hpos.ne', fun _ => rfl⟩

theorem setcc_oneHot (r : Word) : setcc r = 0b100#3 ∨ setcc r = 0b010#3 ∨ setcc r = 0b001#3 :=
  (setcc_cases r).imp And.right (Or.imp And.right And.right)

/-- Settles O24, by the sign of the result. -/
theorem conditionCodeOfAResult : Obligations.ConditionCodeOfAResult := fun r => ⟨ccFrom_setcc r, setcc_oneHot r⟩

/-! ## Who writes `cc` (R22) -/

theorem not_addressExists_iff {addr : Int} : ¬ addressExists addr ↔ addr < 0 ∨ 50 ≤ addr := by
  simp only [addressExists, Config.memSize]
  omega

/-- An LD is outside exactly where its address, checked as a mathematical integer, does not exist (R93). -/
theorem ldOutside_ld_iff (dr : RegIdx) (off9 : BitVec 9) (s : State) :
    LdOutside (.ld dr off9) s ↔ ¬ addressExists (loadAddress s.pc off9) := by
  have haddr : loadAddress s.pc off9 = (s.pc.toNat : Int) + off9.toInt := by
    rw [loadAddress, sext16_toInt off9 (by decide)]
  rw [not_addressExists_iff, haddr]
  constructor
  · rintro ⟨_, _, heq, hout⟩
    cases heq
    exact hout
  · exact fun hout => ⟨dr, off9, rfl, hout⟩

theorem not_ldOutside {i : Instr} (h : ∀ dr off9, i ≠ .ld dr off9) (s : State) : ¬ LdOutside i s :=
  fun ⟨dr, off9, heq, _⟩ => h dr off9 heq

/-- What `dest` says of the execute phase: an instruction with a destination, but for an LD that raises, writes its result
there (R22); every other keeps the registers and `cc`. -/
theorem exec_by_dest (i : Instr) (s : State) :
    (∃ dr v, dest i = some dr ∧ ¬ LdOutside i s ∧ exec i s = .next (s.writeResult dr v)) ∨
    ((dest i = none ∨ LdOutside i s) ∧ ∃ t, exec i s = .next t ∧ t.regs = s.regs ∧ t.cc = s.cc) := by
  cases i with
  | addReg dr => exact .inl ⟨dr, _, rfl, not_ldOutside (by simp) s, rfl⟩
  | addImm dr => exact .inl ⟨dr, _, rfl, not_ldOutside (by simp) s, rfl⟩
  | andReg dr => exact .inl ⟨dr, _, rfl, not_ldOutside (by simp) s, rfl⟩
  | andImm dr => exact .inl ⟨dr, _, rfl, not_ldOutside (by simp) s, rfl⟩
  | notReg dr => exact .inl ⟨dr, _, rfl, not_ldOutside (by simp) s, rfl⟩
  | ld dr off9 =>
    by_cases h : addressExists (loadAddress s.pc off9)
    · exact .inl ⟨dr, _, rfl, fun ho => (ldOutside_ld_iff dr off9 s).1 ho h, execLd_ok dr h⟩
    · exact .inr ⟨.inr ((ldOutside_ld_iff dr off9 s).2 h), _, execLd_error dr h, rfl, rfl⟩
  | br nzp off9 =>
    by_cases h : branchTaken nzp s.cc = true
    · exact .inr ⟨.inl rfl, _, execBr_taken off9 h, rfl, rfl⟩
    · exact .inr ⟨.inl rfl, _, execBr_notTaken off9 h, rfl, rfl⟩
  | trapHalt => exact .inr ⟨.inl rfl, _, rfl, rfl, rfl⟩
  | trapOut => exact .inr ⟨.inl rfl, _, rfl, rfl, rfl⟩
  | trapNop => exact .inr ⟨.inl rfl, _, rfl, rfl, rfl⟩
  | ignored3 => exact .inr ⟨.inl rfl, _, rfl, rfl, rfl⟩
  | ignored4 => exact .inr ⟨.inl rfl, _, rfl, rfl, rfl⟩
  | ignored6 => exact .inr ⟨.inl rfl, _, rfl, rfl, rfl⟩
  | ignored7 => exact .inr ⟨.inl rfl, _, rfl, rfl, rfl⟩
  | ignored8 => exact .inr ⟨.inl rfl, _, rfl, rfl, rfl⟩
  | ignored10 => exact .inr ⟨.inl rfl, _, rfl, rfl, rfl⟩
  | ignored11 => exact .inr ⟨.inl rfl, _, rfl, rfl, rfl⟩
  | ignored12 => exact .inr ⟨.inl rfl, _, rfl, rfl, rfl⟩
  | ignored13 => exact .inr ⟨.inl rfl, _, rfl, rfl, rfl⟩
  | ignored14 => exact .inr ⟨.inl rfl, _, rfl, rfl, rfl⟩

theorem exec_cc {i : Instr} {s t : State} (h : exec i s = .next t) :
    (∀ dr, dest i = some dr → ¬ LdOutside i s → CcFrom t.cc (t.getReg dr)) ∧
    (dest i = none ∨ LdOutside i s → t.cc = s.cc) := by
  rcases exec_by_dest i s with ⟨dr, v, hd, hin, he⟩ | ⟨hno, t', he, -, hcc⟩ <;> cases h.symm.trans he
  · constructor
    · intro dr' hd' _
      cases hd.symm.trans hd'
      rw [State.writeResult_getReg, if_pos rfl]
      exact ccFrom_setcc v
    · rintro (hnone | hout)
      · cases hnone.symm.trans hd
      · exact absurd hout hin
  · refine ⟨fun dr hd hin => ?_, fun _ => hcc⟩
    rcases hno with hnone | hout
    · cases hnone.symm.trans hd
    · exact absurd hout hin

theorem hostExec_cc {c : HostCommand} {s t : State} (h : hostExec c s = .next t) : t.cc = s.cc := by
  rcases hostExec_next h with ⟨_, rfl⟩ | ⟨_, _, -, -, rfl⟩ | ⟨-, -, rfl⟩ | ⟨-, rfl⟩ <;> rfl

theorem step_host_cc {s t : State} (hr : s.status ≠ .running) (h : step s = .next t) : t.cc = s.cc := by
  rw [step_host hr] at h
  rcases hostStep_next h with ⟨-, rfl⟩ | ⟨_, _, -, hc⟩
  · rfl
  · exact (hostExec_cc hc).trans (State.setHostQueue_cc s _)

/-- Settles O26: the execute phase by the destination, and the host's commands by what each can do. -/
theorem onlyResultInstructionsWriteCc : Obligations.OnlyResultInstructionsWriteCc :=
  ⟨fun _ _ _ => exec_cc, fun _ _ => step_host_cc⟩

/-! ## Power-on and the reset command (R12, R17, R126) -/

theorem getReg_of_powerOnRegs {s : State} (h : s.regs = powerOnRegs) (q : RegIdx) : s.getReg q = q.setWidth 16 := by
  have hall : ∀ q : RegIdx, powerOnRegs[q.toNat]'q.isLt = q.setWidth 16 := by decide
  simp only [State.getReg, h, hall]

theorem hostStep_cons {s : State} {c : HostCommand} {rest : List HostCommand} (h : s.hostQueue = c :: rest) :
    hostStep s = hostExec c (s.setHostQueue rest) := by
  rw [hostStep, h]

theorem step_gives {s : State} {c : HostCommand} {rest : List HostCommand} (h : Gives s c rest) :
    step s = hostExec c (s.setHostQueue rest) := by
  obtain ⟨hr, hq⟩ := h
  rw [step_host hr, hostStep_cons hq]

/-- Settles O42: the registers are `powerOnRegs` and no cell is listed, in both states. -/
theorem powerOnAndResetValues : Obligations.PowerOnAndResetValues :=
  ⟨getReg_of_powerOnRegs rfl, rfl, fun _ _ => rfl,
    fun _ _ h => ⟨_, step_gives h, getReg_of_powerOnRegs rfl, fun _ _ => rfl, rfl⟩⟩

end Sys2Proof.Machine
end

section
/-!
PROOF. TRAP's words, taken apart by the mask 0xF03F into opcode and vector (44_trap.md R94 to R96), and what a word that
halts decodes to.
-/
namespace Sys2Proof

/-- The mask of the TRAP rows keeps the opcode and the vector, and nothing else. -/
theorem and_trapMask (w : Word) : w &&& 0xF03F#16 = place 12 (field 12 4 w) ||| place 0 (field 0 6 w) := by
  apply BitVec.eq_of_getLsbD_eq
  intro i hi
  simp only [BitVec.getLsbD_and, BitVec.getLsbD_or, getLsbD_place, getLsbD_field]
  interval_cases i <;> simp

theorem and_trapMask_eq_iff (w : Word) (op : BitVec 4) (vec : BitVec 6) :
    w &&& 0xF03F#16 = place 12 op ||| place 0 vec ↔ field 12 4 w = op ∧ field 0 6 w = vec := by
  rw [and_trapMask]
  constructor
  · intro h
    constructor
    · simpa [field_or, field_place_same, field_place_disjoint] using congrArg (field 12 4) h
    · simpa [field_or, field_place_same, field_place_disjoint] using congrArg (field 0 6) h
  · rintro ⟨rfl, rfl⟩
    rfl

theorem isHaltWord_iff_fields (w : Word) :
    Machine.isHaltWord w ↔ field 12 4 w = 15#4 ∧ field 0 6 w = Config.haltVector :=
  and_trapMask_eq_iff w 15#4 Config.haltVector

/-- By the opcode: every other opcode of R63, and every other vector, decodes to another instruction. -/
theorem fields_of_decode_trapHalt {w : Word} {ign : BitVec 6} (h : decode w = .trapHalt ign) :
    field 12 4 w = 15#4 ∧ field 0 6 w = Config.haltVector := by
  rcases opcode_cases (field 12 4 w) with
    hop | hop | hop | hop | hop | hop | hop | hop | hop | hop | hop | hop | hop | hop | hop | hop
  · cases h.symm.trans (decode_br hop)
  · rcases bit_cases (field 5 1 w) with hm | hm
    · cases h.symm.trans (decode_addReg hop hm)
    · cases h.symm.trans (decode_addImm hop hm)
  · cases h.symm.trans (decode_ld hop)
  · cases h.symm.trans (decode_ignored3 hop)
  · cases h.symm.trans (decode_ignored4 hop)
  · rcases bit_cases (field 5 1 w) with hm | hm
    · cases h.symm.trans (decode_andReg hop hm)
    · cases h.symm.trans (decode_andImm hop hm)
  · cases h.symm.trans (decode_ignored6 hop)
  · cases h.symm.trans (decode_ignored7 hop)
  · cases h.symm.trans (decode_ignored8 hop)
  · cases h.symm.trans (decode_notReg hop)
  · cases h.symm.trans (decode_ignored10 hop)
  · cases h.symm.trans (decode_ignored11 hop)
  · cases h.symm.trans (decode_ignored12 hop)
  · cases h.symm.trans (decode_ignored13 hop)
  · cases h.symm.trans (decode_ignored14 hop)
  · refine ⟨hop, by_contra fun hhalt => ?_⟩
    by_cases hout : field 0 6 w = Config.outVector
    · cases h.symm.trans (decode_trapOut hop hout)
    · cases h.symm.trans (decode_trapNop hop hhalt hout)

/-- The words that decode to TRAP x25 are the halt words (R95). -/
theorem isHaltWord_iff_decode (w : Word) : Machine.isHaltWord w ↔ ∃ ign, decode w = .trapHalt ign := by
  rw [isHaltWord_iff_fields]
  exact ⟨fun ⟨hop, hvec⟩ => ⟨_, decode_trapHalt hop hvec⟩, fun ⟨_, h⟩ => fields_of_decode_trapHalt h⟩

end Sys2Proof
end

section
/-!
PROOF. How a step of a run ends it (40_engine.md R74, R75): by TRAP x25, normally; by any other instruction or a failed
fetch, not at all or in FAULTED.
-/
namespace Sys2Proof.Machine

open Sys2Proof.Claims

/-- The execute phase halts at TRAP x25 and at nothing else. -/
theorem exec_ends {i : Instr} {s t : State} (hr : s.status = .running) (h : exec i s = .next t) :
    ((∃ ign, i = .trapHalt ign) ∧ t = s.haltRun) ∨
    ((¬ ∃ ign, i = .trapHalt ign) ∧ (t.status = .running ∨ t.status = .faulted)) := by
  by_cases hi : ∃ ign, i = .trapHalt ign
  · obtain ⟨ign, rfl⟩ := hi
    exact .inl ⟨⟨ign, rfl⟩, (Host.Outcome.next.inj h).symm⟩
  · refine .inr ⟨hi, ?_⟩
    rcases exec_cases i s with he | ⟨_, _, -, -, he⟩ | ⟨_, _, he⟩ | ⟨ign, hhalt, -⟩ | ⟨_, -, he⟩ | ⟨_, _, -, -, he⟩
    · cases h.symm.trans he
      exact .inl hr
    · cases h.symm.trans he
      exact .inl hr
    · cases h.symm.trans he
      exact .inl hr
    · exact absurd ⟨ign, hhalt⟩ hi
    · cases h.symm.trans he
      exact .inl hr
    · cases h.symm.trans he
      exact .inr rfl

theorem fetches_iff {s : State} (hr : s.status = .running) (w : Word) :
    Fetches s w ↔ uval s.pc < Config.memSize ∧ s.mem.read (uval s.pc) = w := and_iff_right hr

/-- R74: a step of a run halts it where a halt word is fetched, and elsewhere leaves it RUNNING or FAULTED. -/
theorem step_running_ends {s t : State} (hr : s.status = .running) (h : step s = .next t) :
    ((∃ w, Fetches s w ∧ isHaltWord w) ∧ t = s.fetched.haltRun) ∨
    ((¬ ∃ w, Fetches s w ∧ isHaltWord w) ∧ (t.status = .running ∨ t.status = .faulted)) := by
  by_cases hp : uval s.pc < Config.memSize
  · have hfetch : (∃ w, Fetches s w ∧ isHaltWord w) ↔ ∃ ign, decode (s.mem.read (uval s.pc)) = .trapHalt ign := by
      simp only [fetches_iff hr, hp, true_and, exists_eq_left', isHaltWord_iff_decode]
    rw [step_fetched hr hp] at h
    rw [hfetch]
    exact exec_ends hr h
  · rw [step_fetchError hr hp] at h
    cases h
    exact .inr ⟨fun ⟨_, ⟨_, hlt, _⟩, _⟩ => hp hlt, .inr rfl⟩

/-- Settles O36: both directions, the return and the other ends, from the two cases of a step of a run. -/
theorem haltIsTheOnlyNormalEnd : Obligations.HaltIsTheOnlyNormalEnd := by
  intro s t hr h
  rcases step_running_ends hr h with ⟨hw, rfl⟩ | ⟨hw, hend⟩
  · exact ⟨iff_of_true rfl hw, fun _ => rfl, fun hne => absurd rfl hne⟩
  · have hne : t.status ≠ .halted := by
      rcases hend with he | he <;> simp [he]
    exact ⟨iff_of_false hne hw, fun hh => absurd hh hne, fun _ => hend⟩

end Sys2Proof.Machine
end

section
/-!
PROOF. The host's writes of memory (40_engine.md R80): one cell and nothing else, or the error and nothing at all.
-/
namespace Sys2Proof.Machine

open Sys2Proof.Claims

/-- A host's write at an address that exists replaces that cell and keeps the rest of the state (R41). -/
theorem hostWrite_replaces_cell {s : State} (c : Cause) {a : Nat} (v : Word) (hwf : s.mem.wf = true) (ha : a < 50) :
    ∃ t, hostWrite c a v s = .next t ∧ t.mem.read a = v ∧ (∀ b, b ≠ a → t.mem.read b = s.mem.read b) ∧
      t = { s with mem := t.mem, replies := s.replies ++ [.done] } := by
  have hread := fun b => Memory.read_write (a := a) v b hwf
  exact ⟨_, hostWrite_ok c v s ⟨Int.natCast_nonneg a, Int.ofNat_lt.2 ha⟩,
    (hread a).trans (if_pos rfl), fun b hb => (hread b).trans (if_neg hb), rfl⟩

theorem step_loadWord {s : State} {addr : Int} {w : Word} {rest : List HostCommand}
    (h : Gives s (.loadWord addr w) rest) : step s = hostWrite .oorHostLoad addr w (s.setHostQueue rest) :=
  step_gives h

/-- Settles O45: loadWord is the host's write with the cause OOR_HOST_LOAD, by whether the address exists. -/
theorem loadWordReplacesOneCell : Obligations.LoadWordReplacesOneCell := by
  intro s addr w rest hwf hg
  rw [step_loadWord hg]
  constructor
  · rintro a rfl ha
    exact hostWrite_replaces_cell .oorHostLoad w hwf ha
  · intro hout
    exact hostWrite_error .oorHostLoad w (s.setHostQueue rest) (not_addressExists_iff.2 hout)

end Sys2Proof.Machine
end

section
/-!
PROOF. A taken BR (41_branch.md R86, R87): its words, by the mask 0xF000 that keeps the opcode; when it is taken; and
its target, from the incremented `pc`.
-/
namespace Sys2Proof

/-- The opcode's mask keeps the opcode, and nothing else. -/
theorem and_opcodeMask (w : Word) : w &&& 0xF000#16 = place 12 (field 12 4 w) := by
  apply BitVec.eq_of_getLsbD_eq
  intro i hi
  simp only [BitVec.getLsbD_and, getLsbD_place, getLsbD_field]
  interval_cases i <;> simp

theorem and_opcodeMask_eq_iff (w : Word) (op : BitVec 4) : w &&& 0xF000#16 = place 12 op ↔ field 12 4 w = op := by
  rw [and_opcodeMask]
  constructor
  · intro h
    simpa [field_place_same] using congrArg (field 12 4) h
  · rintro rfl
    rfl

theorem decode_of_br_mask {w : Word} (h : w &&& 0xF000#16 = 0x0000#16) :
    decode w = .br (w.extractLsb' 9 3) (w.extractLsb' 0 9) :=
  decode_br ((and_opcodeMask_eq_iff w 0#4).1 h)

end Sys2Proof

namespace Sys2Proof.Machine

open Sys2Proof.Claims

/-- R86: BR is taken where some flag is both requested and set. -/
theorem branchTaken_iff (nzp : BitVec 3) (cc : CondCode) :
    branchTaken nzp cc = true ↔ ∃ k, k < 3 ∧ nzp.getLsbD k = true ∧ cc.getLsbD k = true := by
  rw [branchTaken, decide_eq_true_iff, Ne, BitVec.eq_of_getLsbD_eq_iff]
  simp

theorem step_fetches {s : State} {w : Word} (h : Fetches s w) : step s = exec (decode w) s.fetched := by
  obtain ⟨hr, hp, rfl⟩ := h
  exact step_fetched hr hp

/-- A fetched address is below 50, so the increment does not wrap (R16). -/
theorem fetched_pc_toNat {s : State} {w : Word} (h : Fetches s w) : s.fetched.pc.toNat = s.pc.toNat + 1 := by
  obtain ⟨-, hp, -⟩ := h
  exact incrementByOne_toNat (hp.trans (by decide))

/-- R86: a taken BR goes to its target from the incremented `pc`. -/
theorem step_br_taken {s : State} {w : Word} (h : Fetches s w) (hw : w &&& 0xF000#16 = 0x0000#16)
    (ht : branchTaken (w.extractLsb' 9 3) s.cc = true) :
    step s = .next (s.fetched.setPc (branchTarget s.fetched.pc (w.extractLsb' 0 9))) := by
  rw [step_fetches h, decode_of_br_mask hw]
  exact execBr_taken _ ht

/-- A target that is an address a 16-bit `pc` can hold does not wrap. -/
theorem branchTarget_toNat {pc : Word} {off9 : BitVec 9} (hlo : 0 ≤ (pc.toNat : Int) + off9.toInt)
    (hhi : (pc.toNat : Int) + off9.toInt < 65536) :
    ((branchTarget pc off9).toNat : Int) = pc.toNat + off9.toInt := by
  rw [branchTarget, wrap16_toNat, sext16_toInt off9 (by decide), Int.emod_eq_of_lt hlo hhi]

/-- Settles O18: the offset's range bounds the target, and below 65536 a target that is not negative does not wrap. -/
theorem branchOffsetIsFromTheIncrementedPc : Obligations.BranchOffsetIsFromTheIncrementedPc := by
  intro s w k hf hw hk hnzp hcc
  have hreq : (w.extractLsb' 9 3).getLsbD k = true := by simp [hk, hnzp]
  have ht : branchTaken (w.extractLsb' 9 3) s.cc = true := (branchTaken_iff _ _).2 ⟨k, hk, hreq, hcc⟩
  obtain ⟨hlo, hhi⟩ : -256 ≤ (w.extractLsb' 0 9).toInt ∧ (w.extractLsb' 0 9).toInt ≤ 255 := off9_range _
  have hpc : (s.fetched.pc.toNat : Int) = s.pc.toNat + 1 := by exact_mod_cast fetched_pc_toNat hf
  have ⟨_, hp, _⟩ := hf
  refine ⟨by omega, by omega, _, step_br_taken hf hw ht, fun hnonneg => ?_⟩
  rw [← hpc] at hnonneg ⊢
  exact branchTarget_toNat hnonneg (by omega)

end Sys2Proof.Machine
end

section
/-!
PROOF. ADD and AND (42_operate.md R88 to R91): their words, by the mask 0xF020 that keeps the opcode and the mode bit; the
frame their one write of a result leaves; and the immediate as a 16-bit word.
-/
namespace Sys2Proof

/-- The mask of the ADD and AND rows keeps the opcode and the mode bit, and nothing else. -/
theorem and_modeMask (w : Word) : w &&& 0xF020#16 = place 12 (field 12 4 w) ||| place 5 (field 5 1 w) := by
  apply BitVec.eq_of_getLsbD_eq
  intro i hi
  simp only [BitVec.getLsbD_and, BitVec.getLsbD_or, getLsbD_place, getLsbD_field]
  interval_cases i <;> simp

theorem and_modeMask_eq_iff (w : Word) (op : BitVec 4) (mode : BitVec 1) :
    w &&& 0xF020#16 = place 12 op ||| place 5 mode ↔ field 12 4 w = op ∧ field 5 1 w = mode := by
  rw [and_modeMask]
  constructor
  · intro h
    constructor
    · simpa [field_or, field_place_same, field_place_disjoint] using congrArg (field 12 4) h
    · simpa [field_or, field_place_same, field_place_disjoint] using congrArg (field 5 1) h
  · rintro ⟨rfl, rfl⟩
    rfl

theorem decode_of_addReg_mask {w : Word} (h : w &&& 0xF020#16 = 0x1000#16) :
    decode w = .addReg (w.extractLsb' 9 3) (w.extractLsb' 6 3) (w.extractLsb' 3 2) (w.extractLsb' 0 3) := by
  obtain ⟨hop, hmode⟩ := (and_modeMask_eq_iff w 1#4 0#1).1 h
  exact decode_addReg hop hmode

theorem decode_of_addImm_mask {w : Word} (h : w &&& 0xF020#16 = 0x1020#16) :
    decode w = .addImm (w.extractLsb' 9 3) (w.extractLsb' 6 3) (w.extractLsb' 0 5) := by
  obtain ⟨hop, hmode⟩ := (and_modeMask_eq_iff w 1#4 1#1).1 h
  exact decode_addImm hop hmode

theorem decode_of_andReg_mask {w : Word} (h : w &&& 0xF020#16 = 0x5000#16) :
    decode w = .andReg (w.extractLsb' 9 3) (w.extractLsb' 6 3) (w.extractLsb' 3 2) (w.extractLsb' 0 3) := by
  obtain ⟨hop, hmode⟩ := (and_modeMask_eq_iff w 5#4 0#1).1 h
  exact decode_andReg hop hmode

theorem decode_of_andImm_mask {w : Word} (h : w &&& 0xF020#16 = 0x5020#16) :
    decode w = .andImm (w.extractLsb' 9 3) (w.extractLsb' 6 3) (w.extractLsb' 0 5) := by
  obtain ⟨hop, hmode⟩ := (and_modeMask_eq_iff w 5#4 1#1).1 h
  exact decode_andImm hop hmode

end Sys2Proof

namespace Sys2Proof.Machine

open Sys2Proof.Claims

/-- The effect and the frame of the one write that every result-defining instruction makes (R22). -/
theorem writesResult_writeResult (s : State) (dr : RegIdx) (r : Word) : WritesResult s (s.writeResult dr r) dr r := by
  have hdest : (s.writeResult dr r).getReg dr = r := by rw [State.writeResult_getReg, if_pos rfl]
  have hother : ∀ q, q ≠ dr → (s.writeResult dr r).getReg q = s.getReg q := fun q hq => by
    rw [State.writeResult_getReg, if_neg hq]
  have hcells : KeepsCells s (s.writeResult dr r) := fun _ => rfl
  have hrun : KeepsRun s (s.writeResult dr r) := ⟨rfl, rfl, rfl, rfl⟩
  exact ⟨hdest, hother, ccFrom_setcc r, rfl, rfl, hcells, rfl, hrun⟩

/-! ## Register mode -/

theorem exec_addReg (s : State) (dr sr1 sr2 : RegIdx) (ign : BitVec 2) :
    exec (.addReg dr sr1 ign sr2) s = .next (s.writeResult dr (wrap16 (sval (s.getReg sr1) + sval (s.getReg sr2)))) := rfl

theorem exec_andReg (s : State) (dr sr1 sr2 : RegIdx) (ign : BitVec 2) :
    exec (.andReg dr sr1 ign sr2) s = .next (s.writeResult dr (s.getReg sr1 &&& s.getReg sr2)) := rfl

/-- Settles O8: ADD writes the wrapped signed sum as its one result. -/
theorem addRegisterResultAndFrame : Obligations.AddRegisterResultAndFrame :=
  ⟨fun _ => decode_of_addReg_mask, fun s dr sr1 sr2 ign =>
    ⟨_, exec_addReg s dr sr1 sr2 ign, writesResult_writeResult s dr _⟩⟩

/-- Settles O11: AND writes the bitwise AND as its one result. -/
theorem andRegisterResultAndFrame : Obligations.AndRegisterResultAndFrame :=
  ⟨fun _ => decode_of_andReg_mask, fun s dr sr1 sr2 ign =>
    ⟨_, exec_andReg s dr sr1 sr2 ign, writesResult_writeResult s dr _⟩⟩

/-! ## Immediate mode (R62) -/

theorem imm5_range (v : BitVec 5) : -16 ≤ sval v ∧ sval v ≤ 15 := sval_range v

/-- Sign extension to 16 bits gives the word of the signed reading (R9). -/
theorem sext16_eq_wrap16 {n : Nat} (v : BitVec n) : sext16 v = wrap16 (sval v) := rfl

/-- The signed reading of the extended immediate is that of its five bits. -/
theorem exec_addImm (s : State) (dr sr1 : RegIdx) (imm5 : BitVec 5) :
    exec (.addImm dr sr1 imm5) s = .next (s.writeResult dr (wrap16 (sval (s.getReg sr1) + sval imm5))) := by
  rw [← sext16_toInt imm5 (by decide)]
  rfl

theorem exec_andImm (s : State) (dr sr1 : RegIdx) (imm5 : BitVec 5) :
    exec (.andImm dr sr1 imm5) s = .next (s.writeResult dr (s.getReg sr1 &&& wrap16 (sval imm5))) := by
  rw [← sext16_eq_wrap16]
  rfl

/-- Settles O10: ADD writes the wrapped sum with the signed immediate, whose range is that of five bits. -/
theorem addImmediateResultAndFrame : Obligations.AddImmediateResultAndFrame := by
  refine ⟨fun _ => decode_of_addImm_mask, fun s dr sr1 imm5 => ?_⟩
  obtain ⟨hlo, hhi⟩ := imm5_range imm5
  exact ⟨hlo, hhi, _, exec_addImm s dr sr1 imm5, writesResult_writeResult s dr _⟩

/-- Settles O12: AND writes the bitwise AND with the word of the signed immediate. -/
theorem andImmediateResultAndFrame : Obligations.AndImmediateResultAndFrame :=
  ⟨fun _ => decode_of_andImm_mask, fun s dr sr1 imm5 =>
    ⟨_, exec_andImm s dr sr1 imm5, writesResult_writeResult s dr _⟩⟩

end Sys2Proof.Machine
end

section
/-!
PROOF. TRAP (44_trap.md R94 to R97): its words, by the opcode and the vector; the effect and the frame of each vector; and
the run command that starts the next run after a halt (R95).
-/
namespace Sys2Proof

theorem decode_of_trapHalt_mask {w : Word} (h : w &&& 0xF03F#16 = 0xF025#16) :
    decode w = .trapHalt (w.extractLsb' 6 6) := by
  obtain ⟨hop, hvec⟩ := (and_trapMask_eq_iff w 15#4 Config.haltVector).1 h
  exact decode_trapHalt hop hvec

theorem decode_of_trapOut_mask {w : Word} (h : w &&& 0xF03F#16 = 0xF021#16) :
    decode w = .trapOut (w.extractLsb' 6 6) := by
  obtain ⟨hop, hvec⟩ := (and_trapMask_eq_iff w 15#4 Config.outVector).1 h
  exact decode_trapOut hop hvec

theorem decode_of_trapNop_mask {w : Word} (h : w &&& 0xF000#16 = 0xF000#16) (hhalt : w.extractLsb' 0 6 ≠ 0x25#6)
    (hout : w.extractLsb' 0 6 ≠ 0x21#6) : decode w = .trapNop (w.extractLsb' 6 6) (w.extractLsb' 0 6) :=
  decode_trapNop ((and_opcodeMask_eq_iff w 15#4).1 h) hhalt hout

end Sys2Proof

namespace Sys2Proof.Machine

open Sys2Proof.Claims

/-- The state that a completed fetch of `w` leaves: `ir` and `pc` are written, and nothing else (R70, R71). -/
theorem fetched_eq {s : State} {w : Word} (h : Fetches s w) : s.fetched = { s with ir := w, pc := s.pc + 1#16 } := by
  obtain ⟨-, -, rfl⟩ := h
  rw [State.fetched, incrementByOne_eq]
  rfl

/-! ## The vector 0x25 (R95) -/

theorem exec_trapHalt (ign : BitVec 6) (s : State) : exec (.trapHalt ign) s = .next s.haltRun := rfl

theorem step_haltWord {s : State} {w : Word} (h : Fetches s w) (hw : isHaltWord w) :
    step s = .next s.fetched.haltRun := by
  rw [step_fetches h, decode_of_trapHalt_mask hw, exec_trapHalt]

/-- Outside FAULTED the run command changes the status alone (R69). -/
theorem hostRun_accepted {s : State} (h : s.status ≠ .faulted) : hostRun s = .next (s.setStatus .running) := by
  unfold hostRun
  split
  · contradiction
  · rfl
  · rfl
  · rfl

theorem step_run {s : State} {rest : List HostCommand} (hg : Gives s .run rest) (h : s.status ≠ .faulted) :
    step s = .next { s with status := .running, hostQueue := rest } :=
  (step_gives hg).trans (hostRun_accepted (s := s.setHostQueue rest) h)

/-- Settles O20: the effect and the frame are those of `haltRun`, a halting step is a fetch and `haltRun`, and the run
command is accepted in HALTED. -/
theorem haltEffectAndFrame : Obligations.HaltEffectAndFrame := by
  refine ⟨fun _ => decode_of_trapHalt_mask, fun s ign => ?_, fun s w hf hw => ?_, fun s rest hh hq => ?_⟩
  · have hregs : KeepsRegs s s.haltRun := s.haltRun_getReg
    have hcells : KeepsCells s s.haltRun := fun _ => rfl
    exact ⟨_, exec_trapHalt ign s, rfl, rfl, hregs, rfl, rfl, rfl, hcells, rfl, rfl, rfl⟩
  · have hpc : s.fetched.haltRun.pc.toNat = s.pc.toNat + 1 := fetched_pc_toNat hf
    have hir : s.fetched.haltRun.ir = w := by rw [State.haltRun_ir, fetched_eq hf]
    exact ⟨_, step_haltWord hf hw, rfl, hpc, hir⟩
  · have hrunning : s.status ≠ .running := by simp [hh]
    have hfaulted : s.status ≠ .faulted := by simp [hh]
    exact step_run ⟨hrunning, hq⟩ hfaulted

/-! ## The vector 0x21 (R96) -/

theorem exec_trapOut (ign : BitVec 6) (s : State) :
    exec (.trapOut ign) s = .next (s.pushOutput (lowByte (s.getReg 0))) := rfl

/-- The low 8 bits are the unsigned reading modulo 2^8. -/
theorem lowByte_eq (v : Word) : lowByte v = BitVec.ofNat 8 v.toNat := rfl

/-- Output appends to the stream and touches nothing else (R29). -/
theorem pushOutput_frame (s : State) (c : Byte) :
    KeepsRegs s (s.pushOutput c) ∧ KeepsCells s (s.pushOutput c) ∧ KeepsRun s (s.pushOutput c) :=
  ⟨s.pushOutput_getReg c, fun _ => rfl, rfl, rfl, rfl, rfl⟩

/-- Settles O21: the effect and the frame are those of appending the low byte of R0 to the output. -/
theorem outEffectAndFrame : Obligations.OutEffectAndFrame := by
  refine ⟨fun _ => decode_of_trapOut_mask, fun s ign => ?_⟩
  obtain ⟨hregs, hcells, hrun⟩ := pushOutput_frame s (lowByte (s.getReg 0))
  have hout := s.pushOutput_output (lowByte (s.getReg 0))
  rw [lowByte_eq] at hout
  exact ⟨_, exec_trapOut ign s, hout, hregs, rfl, rfl, rfl, hcells, hrun⟩

/-! ## Every other vector (R97) -/

theorem exec_trapNop (ign vec : BitVec 6) (s : State) : exec (.trapNop ign vec) s = .next s := rfl

/-- Settles O22: the execute phase keeps the state, so a step leaves what its fetch leaves. -/
theorem otherTrapVectorsDoNothing : Obligations.OtherTrapVectorsDoNothing := by
  refine ⟨fun _ => decode_of_trapNop_mask, fun s ign vec => exec_trapNop ign vec s, fun s w hf hw hhalt hout => ?_⟩
  rw [step_fetches hf, decode_of_trapNop_mask hw hhalt hout, exec_trapNop, fetched_eq hf]

end Sys2Proof.Machine
end

section
/-!
PROOF. The ten ignored opcodes (45_ignored_opcodes.md R98 to R107): their words, by the opcode alone; their execute phase,
which does nothing; and the step, which leaves what its fetch leaves.
-/
namespace Sys2Proof

/-- The instructions of the format R61, whose `bits[11:0]` are ignored. -/
inductive Instr.IsIgnored : Instr → Prop
  | op3 (ign : BitVec 12) : IsIgnored (.ignored3 ign)
  | op4 (ign : BitVec 12) : IsIgnored (.ignored4 ign)
  | op6 (ign : BitVec 12) : IsIgnored (.ignored6 ign)
  | op7 (ign : BitVec 12) : IsIgnored (.ignored7 ign)
  | op8 (ign : BitVec 12) : IsIgnored (.ignored8 ign)
  | op10 (ign : BitVec 12) : IsIgnored (.ignored10 ign)
  | op11 (ign : BitVec 12) : IsIgnored (.ignored11 ign)
  | op12 (ign : BitVec 12) : IsIgnored (.ignored12 ign)
  | op13 (ign : BitVec 12) : IsIgnored (.ignored13 ign)
  | op14 (ign : BitVec 12) : IsIgnored (.ignored14 ign)

theorem isIgnored_decode {w : Word}
    (h : field 12 4 w ∈ [3#4, 4#4, 6#4, 7#4, 8#4, 10#4, 11#4, 12#4, 13#4, 14#4]) : (decode w).IsIgnored := by
  simp only [List.mem_cons, List.not_mem_nil, or_false] at h
  rcases h with h | h | h | h | h | h | h | h | h | h
  · exact decode_ignored3 h ▸ .op3 _
  · exact decode_ignored4 h ▸ .op4 _
  · exact decode_ignored6 h ▸ .op6 _
  · exact decode_ignored7 h ▸ .op7 _
  · exact decode_ignored8 h ▸ .op8 _
  · exact decode_ignored10 h ▸ .op10 _
  · exact decode_ignored11 h ▸ .op11 _
  · exact decode_ignored12 h ▸ .op12 _
  · exact decode_ignored13 h ▸ .op13 _
  · exact decode_ignored14 h ▸ .op14 _

theorem opcode_of_mask {w : Word} (op : BitVec 4) (h : w &&& 0xF000#16 = place 12 op) : field 12 4 w = op :=
  (and_opcodeMask_eq_iff w op).1 h

end Sys2Proof

namespace Sys2Proof.Machine

open Sys2Proof.Claims

theorem exec_ignored {i : Instr} (s : State) (h : i.IsIgnored) : exec i s = .next s := by
  cases h <;> rfl

theorem step_ignored {s : State} {w : Word} (hf : Fetches s w) (h : (decode w).IsIgnored) :
    step s = .next { s with ir := w, pc := s.pc + 1#16 } := by
  rw [step_fetches hf, exec_ignored _ h, fetched_eq hf]

/-- Settles O23: the opcode alone decides the constructor, and an ignored instruction keeps the state its fetch leaves. -/
theorem ignoredOpcodesDoNothing : Obligations.IgnoredOpcodesDoNothing := by
  refine ⟨fun w => ?words, fun s ign => ?exec, fun s w hf hop => step_ignored hf (isIgnored_decode hop)⟩
  case words =>
    exact ⟨fun h => decode_ignored3 (opcode_of_mask 3 h), fun h => decode_ignored4 (opcode_of_mask 4 h),
      fun h => decode_ignored6 (opcode_of_mask 6 h), fun h => decode_ignored7 (opcode_of_mask 7 h),
      fun h => decode_ignored8 (opcode_of_mask 8 h), fun h => decode_ignored10 (opcode_of_mask 10 h),
      fun h => decode_ignored11 (opcode_of_mask 11 h), fun h => decode_ignored12 (opcode_of_mask 12 h),
      fun h => decode_ignored13 (opcode_of_mask 13 h), fun h => decode_ignored14 (opcode_of_mask 14 h)⟩
  case exec =>
    exact ⟨exec_ignored s (.op3 ign), exec_ignored s (.op4 ign), exec_ignored s (.op6 ign), exec_ignored s (.op7 ign),
      exec_ignored s (.op8 ign), exec_ignored s (.op10 ign), exec_ignored s (.op11 ign), exec_ignored s (.op12 ign),
      exec_ignored s (.op13 ign), exec_ignored s (.op14 ign)⟩

end Sys2Proof.Machine
end

section
/-!
PROOF. The words and the instructions determine each other (30_encoding.md R53 to R65): decode undoes encode, one lemma of
Laws/PerInstr.lean per constructor; and a word is put together again from the fields its format cuts it into.
-/
namespace Sys2Proof

/-! ## Decode undoes encode -/

theorem decode_encode : ∀ i : Instr, i.wf = true → decode (encode i) = i
  | .br _ _ => Laws.RoundTrip.br _ _
  | .addReg _ _ _ _ => Laws.RoundTrip.addReg _ _ _ _
  | .addImm _ _ _ => Laws.RoundTrip.addImm _ _ _
  | .ld _ _ => Laws.RoundTrip.ld _ _
  | .andReg _ _ _ _ => Laws.RoundTrip.andReg _ _ _ _
  | .andImm _ _ _ => Laws.RoundTrip.andImm _ _ _
  | .notReg _ _ _ => Laws.RoundTrip.notReg _ _ _
  | .trapHalt _ => Laws.RoundTrip.trapHalt _
  | .trapOut _ => Laws.RoundTrip.trapOut _
  | .trapNop _ _ => Laws.RoundTrip.trapNop _ _
  | .ignored3 _ => Laws.RoundTrip.ignored3 _
  | .ignored4 _ => Laws.RoundTrip.ignored4 _
  | .ignored6 _ => Laws.RoundTrip.ignored6 _
  | .ignored7 _ => Laws.RoundTrip.ignored7 _
  | .ignored8 _ => Laws.RoundTrip.ignored8 _
  | .ignored10 _ => Laws.RoundTrip.ignored10 _
  | .ignored11 _ => Laws.RoundTrip.ignored11 _
  | .ignored12 _ => Laws.RoundTrip.ignored12 _
  | .ignored13 _ => Laws.RoundTrip.ignored13 _
  | .ignored14 _ => Laws.RoundTrip.ignored14 _

/-- Settles O1, by the constructors. -/
theorem decodeUndoesEncode : Obligations.DecodeUndoesEncode := decode_encode

/-! ## Encode undoes decode -/

/-- Two adjacent fields, each put back in its place, are the field that spans both. -/
@[simp] theorem place_field_or_place_field {lo len mid : Nat} (len' : Nat) (w : Word) (h : lo + len = mid) :
    place mid (field mid len' w) ||| place lo (field lo len w) = place lo (field lo (len + len') w) := by
  apply BitVec.eq_of_getLsbD_eq
  intro i hi
  subst h
  simp only [BitVec.getLsbD_or, getLsbD_place, getLsbD_field, hi, decide_true, Bool.true_and]
  by_cases hlo : lo ≤ i
  · have hsum : lo + (i - lo) = i := by omega
    by_cases hmid : lo + len ≤ i
    · have hsum' : lo + len + (i - (lo + len)) = i := by omega
      have hlen : ¬ i - lo < len := by omega
      have hlen' : i - (lo + len) < len' ↔ i - lo < len + len' := by omega
      simp [hlo, hmid, hsum, hsum', hlen, hlen']
    · have hlen : i - lo < len := by omega
      have hlen' : i - lo < len + len' := by omega
      simp [hlo, hmid, hsum, hlen, hlen']
  · have hmid : ¬ lo + len ≤ i := by omega
    simp [hlo, hmid]

/-- A field of all 16 bits, put back in its place, is the word. -/
@[simp] theorem place_field_all {len : Nat} (w : Word) (h : 16 ≤ len) : place 0 (field 0 len w) = w := by
  apply BitVec.eq_of_getLsbD_eq
  intro i hi
  have hlen : i < len := by omega
  simp only [getLsbD_place, getLsbD_field]
  simp [hi, hlen]

theorem encode_decode (w : Word) : encode (decode w) = w := by
  rcases opcode_cases (field 12 4 w) with
    hop | hop | hop | hop | hop | hop | hop | hop | hop | hop | hop | hop | hop | hop | hop | hop
  · simp [decode_br hop, encode, ← hop]
  · rcases bit_cases (field 5 1 w) with hm | hm
    · simp [decode_addReg hop hm, encode, ← hop, ← hm]
    · simp [decode_addImm hop hm, encode, ← hop, ← hm]
  · simp [decode_ld hop, encode, ← hop]
  · simp [decode_ignored3 hop, encode, ← hop]
  · simp [decode_ignored4 hop, encode, ← hop]
  · rcases bit_cases (field 5 1 w) with hm | hm
    · simp [decode_andReg hop hm, encode, ← hop, ← hm]
    · simp [decode_andImm hop hm, encode, ← hop, ← hm]
  · simp [decode_ignored6 hop, encode, ← hop]
  · simp [decode_ignored7 hop, encode, ← hop]
  · simp [decode_ignored8 hop, encode, ← hop]
  · simp [decode_notReg hop, encode, ← hop]
  · simp [decode_ignored10 hop, encode, ← hop]
  · simp [decode_ignored11 hop, encode, ← hop]
  · simp [decode_ignored12 hop, encode, ← hop]
  · simp [decode_ignored13 hop, encode, ← hop]
  · simp [decode_ignored14 hop, encode, ← hop]
  · by_cases hhalt : field 0 6 w = Config.haltVector
    · simp [decode_trapHalt hop hhalt, encode, ← hop, ← hhalt]
    · by_cases hout : field 0 6 w = Config.outVector
      · simp [decode_trapOut hop hout, encode, ← hop, ← hout]
      · simp [decode_trapNop hop hhalt hout, encode, ← hop]

/-! ## What a word is, by what it decodes to -/

theorem fields_of_decode_br {w : Word} {nzp : BitVec 3} {off9 : BitVec 9} (h : decode w = .br nzp off9) :
    field 12 4 w = 0#4 ∧ field 9 3 w = nzp ∧ field 0 9 w = off9 := by
  rw [← encode_decode w, h]
  simp [encode, field_or, field_place_same, field_place_disjoint]

theorem fields_of_decode_trapOut {w : Word} {ign : BitVec 6} (h : decode w = .trapOut ign) :
    field 12 4 w = 15#4 ∧ field 0 6 w = Config.outVector := by
  rw [← encode_decode w, h]
  simp [encode, field_or, field_place_same, field_place_disjoint]

theorem fields_of_decode_trapNop {w : Word} {ign vec : BitVec 6} (h : decode w = .trapNop ign vec) :
    field 12 4 w = 15#4 ∧ field 0 6 w = vec := by
  rw [← encode_decode w, h]
  simp [encode, field_or, field_place_same, field_place_disjoint]

/-- Only a `trapNop` can be ill-formed (R97). -/
theorem wf_of_trapNop_vector {i : Instr}
    (h : ∀ ign vec, i = .trapNop ign vec → vec ≠ Config.haltVector ∧ vec ≠ Config.outVector) : i.wf = true := by
  cases i with
  | trapNop ign vec => simpa [Instr.wf] using h ign vec rfl
  | _ => rfl

/-- R64. The decoder answers `trapNop` after it has ruled out the two recognised vectors. -/
theorem decode_wf (w : Word) : (decode w).wf = true := by
  refine wf_of_trapNop_vector fun ign vec h => ?_
  obtain ⟨hop, hvec⟩ := fields_of_decode_trapNop h
  constructor
  · rintro rfl
    cases h.symm.trans (decode_trapHalt hop hvec)
  · rintro rfl
    cases h.symm.trans (decode_trapOut hop hvec)

/-- Settles O2: the fields of each format are adjacent and span the word. -/
theorem encodeUndoesDecode : Obligations.EncodeUndoesDecode := fun w => ⟨decode_wf w, encode_decode w⟩

/-- Settles O3, by evaluating the decoder on each word. -/
theorem specExampleWordsDecode : Obligations.SpecExampleWordsDecode := by
  unfold Obligations.SpecExampleWordsDecode
  decide

end Sys2Proof
end

section
/-!
PROOF. Who writes what (10_state.md R13 to R29, 20_memory.md R39, R41): what the execute phase and the host's commands leave
as it was, said once for each, and from it the writers of the registers, `pc`, `ir`, memory and the output.
-/
namespace Sys2Proof.Machine

open Sys2Proof.Claims

/-! ## What the execute phase leaves as it was -/

theorem exec_frame {i : Instr} {s t : State} (h : exec i s = .next t) :
    t.ir = s.ir ∧ t.mem = s.mem ∧ t.hostQueue = s.hostQueue := by
  rcases exec_cases i s with he | ⟨_, _, -, -, he⟩ | ⟨_, _, he⟩ | ⟨_, -, he⟩ | ⟨_, -, he⟩ | ⟨_, _, -, -, he⟩ <;>
    cases h.symm.trans he <;> exact ⟨rfl, rfl, rfl⟩

/-- The execute phase writes `pc` for a taken BR alone (R16). -/
theorem exec_pc {i : Instr} {s t : State} (h : exec i s = .next t) :
    t.pc = s.pc ∨
    ∃ nzp off9, i = .br nzp off9 ∧ branchTaken nzp s.cc = true ∧ t.pc = branchTarget s.pc off9 := by
  rcases exec_cases i s with he | ⟨nzp, off9, hi, ht, he⟩ | ⟨_, _, he⟩ | ⟨_, -, he⟩ | ⟨_, -, he⟩ | ⟨_, _, -, -, he⟩ <;>
    cases h.symm.trans he
  case inr.inl => exact .inr ⟨nzp, off9, hi, ht, rfl⟩
  all_goals exact .inl rfl

/-- The execute phase writes the output for TRAP x21 alone (R29). -/
theorem exec_output {i : Instr} {s t : State} (h : exec i s = .next t) :
    t.output = s.output ∨ ∃ ign, i = .trapOut ign ∧ t.output = s.output ++ [lowByte (s.getReg 0)] := by
  rcases exec_cases i s with he | ⟨_, _, -, -, he⟩ | ⟨_, _, he⟩ | ⟨_, -, he⟩ | ⟨ign, hi, he⟩ | ⟨_, _, -, -, he⟩ <;>
    cases h.symm.trans he
  case inr.inr.inr.inr.inl => exact .inr ⟨ign, hi, rfl⟩
  all_goals exact .inl rfl

/-- The execute phase writes the destination register alone (R13). -/
theorem exec_getReg {i : Instr} {s t : State} {q : RegIdx} (h : exec i s = .next t) (hq : dest i ≠ some q) :
    t.getReg q = s.getReg q := by
  rcases exec_by_dest i s with ⟨dr, v, hd, -, he⟩ | ⟨-, t', he, hregs, -⟩ <;> cases h.symm.trans he
  · have hne : q ≠ dr := fun heq => hq (heq ▸ hd)
    rw [State.writeResult_getReg, if_neg hne]
  · rw [State.getReg, hregs, State.getReg]

/-! ## What a host command leaves as it was -/

theorem hostExec_frame {c : HostCommand} {s t : State} (h : hostExec c s = .next t) :
    t.pc = s.pc ∧ t.ir = s.ir ∧ t.output = s.output ∧ t.faultRecord = s.faultRecord := by
  rcases hostExec_next h with ⟨_, rfl⟩ | ⟨_, _, -, -, rfl⟩ | ⟨-, -, rfl⟩ | ⟨-, rfl⟩ <;> exact ⟨rfl, rfl, rfl, rfl⟩

theorem step_host_frame {s t : State} (hr : s.status ≠ .running) (h : step s = .next t) :
    t.pc = s.pc ∧ t.ir = s.ir ∧ t.output = s.output ∧ t.faultRecord = s.faultRecord := by
  rw [step_host hr] at h
  rcases hostStep_next h with ⟨-, rfl⟩ | ⟨_, rest, -, hc⟩
  · exact ⟨rfl, rfl, rfl, rfl⟩
  · exact hostExec_frame (s := s.setHostQueue rest) hc

/-- Of the host's commands reset alone writes a register (R13). -/
theorem step_host_regs {s t : State} (hr : s.status ≠ .running) (h : step s = .next t) :
    KeepsRegs s t ∨ ∃ rest, s.hostQueue = .reset :: rest := by
  rw [step_host hr] at h
  rcases hostStep_next h with ⟨-, rfl⟩ | ⟨c, rest, hq, hc⟩
  · exact .inl fun _ => rfl
  · rcases hostExec_next hc with ⟨_, rfl⟩ | ⟨_, _, -, -, rfl⟩ | ⟨-, -, rfl⟩ | ⟨rfl, -⟩
    · exact .inl fun _ => rfl
    · exact .inl fun _ => rfl
    · exact .inl fun _ => rfl
    · exact .inr ⟨rest, hq⟩

/-- Settles O27: the execute phase by the destination, and the host's commands by what each can do. -/
theorem onlyTheDestinationRegisterChanges : Obligations.OnlyTheDestinationRegisterChanges :=
  ⟨fun _ _ _ _ => exec_getReg, fun _ _ => step_host_regs⟩

/-! ## A step, by whether its fetch completes -/

theorem fetches_or_not (s : State) : (∃ w, Fetches s w) ∨ s.status ≠ .running ∨ 50 ≤ s.pc.toNat := by
  by_cases hr : s.status = .running
  · rcases Nat.lt_or_ge s.pc.toNat 50 with hp | hp
    · exact .inl ⟨_, hr, hp, rfl⟩
    · exact .inr (.inr hp)
  · exact .inr (.inl hr)

/-- A fetch that raises records and returns its error and writes nothing else (R70, R110). -/
theorem step_fetch_outside {s : State} (hr : s.status = .running) (hp : 50 ≤ s.pc.toNat) :
    step s = .next (s.raiseInRun { cause := .oorFetch, addr := uval s.pc }) :=
  step_fetchError hr (Nat.not_lt.2 hp)

theorem step_no_fetch_frame {s t : State} (h : step s = .next t) (hno : s.status ≠ .running ∨ 50 ≤ s.pc.toNat) :
    t.pc = s.pc ∧ t.ir = s.ir ∧ t.output = s.output := by
  by_cases hr : s.status = .running
  · rw [step_fetch_outside hr (hno.resolve_left (not_not_intro hr))] at h
    cases h
    exact ⟨rfl, rfl, rfl⟩
  · obtain ⟨hpc, hir, hout, -⟩ := step_host_frame hr h
    exact ⟨hpc, hir, hout⟩

/-- A step of a run keeps memory and the host's commands, and the output only grows (R39, R79). -/
theorem step_running_frame {s t : State} (hr : s.status = .running) (h : step s = .next t) :
    t.mem = s.mem ∧ t.hostQueue = s.hostQueue ∧ s.output <+: t.output := by
  rcases fetches_or_not s with ⟨w, hf⟩ | hno
  · rw [step_fetches hf] at h
    obtain ⟨-, hmem, hqueue⟩ := exec_frame h
    refine ⟨hmem, hqueue, ?_⟩
    rcases exec_output h with hout | ⟨-, -, hout⟩
    · rw [hout]
      exact List.prefix_rfl
    · exact ⟨_, hout.symm⟩
  · rw [step_fetch_outside hr (hno.resolve_left (not_not_intro hr))] at h
    cases h
    exact ⟨rfl, rfl, List.prefix_rfl⟩

/-! ## Who writes `pc` and `ir` -/

theorem loadAddress_eq (pc : Word) (off9 : BitVec 9) : loadAddress pc off9 = (pc.toNat : Int) + off9.toInt := by
  rw [loadAddress, sext16_toInt off9 (by decide)]

theorem branchTarget_eq (pc : Word) (off9 : BitVec 9) :
    branchTarget pc off9 = BitVec.ofInt 16 ((pc.toNat : Int) + off9.toInt) := by
  rw [← loadAddress_eq]
  rfl

theorem step_fetches_pc {s t : State} {w : Word} (hf : Fetches s w) (h : step s = .next t) :
    t.pc = s.pc + 1#16 ∨
    (w &&& 0xF000#16 = 0x0000#16 ∧ w.extractLsb' 9 3 &&& s.cc ≠ 0b000#3 ∧
      t.pc = BitVec.ofInt 16 ((s.pc.toNat : Int) + 1 + (w.extractLsb' 0 9).toInt)) := by
  rw [step_fetches hf] at h
  rcases exec_pc h with hpc | ⟨nzp, off9, hbr, htaken, hpc⟩
  · rw [fetched_eq hf] at hpc
    exact .inl hpc
  · obtain ⟨hop, rfl, rfl⟩ := fields_of_decode_br hbr
    refine .inr ⟨(and_opcodeMask_eq_iff w 0#4).2 hop, of_decide_eq_true htaken, ?_⟩
    rw [hpc, branchTarget_eq, fetched_pc_toNat hf]
    rfl

/-- Settles O29: with a completed fetch by what the execute phase does to `pc`; without one nothing writes it. -/
theorem onlyIncrementAndBranchWritePc : Obligations.OnlyIncrementAndBranchWritePc := by
  intro s t h
  refine ⟨fun w hf => step_fetches_pc hf h, fun hno => ?_⟩
  obtain ⟨hpc, -, -⟩ := step_no_fetch_frame h hno
  exact hpc

theorem step_fetches_ir {s t : State} {w : Word} (hf : Fetches s w) (h : step s = .next t) : t.ir = w := by
  rw [step_fetches hf] at h
  obtain ⟨hir, -, -⟩ := exec_frame h
  rw [hir, fetched_eq hf]

/-- Settles O30: the fetch writes `ir`, and neither the execute phase nor the host does. -/
theorem onlyTheFetchWritesIr : Obligations.OnlyTheFetchWritesIr := by
  intro s t h
  refine ⟨fun w hf => step_fetches_ir hf h, fun hno => ?_⟩
  obtain ⟨-, hir, -⟩ := step_no_fetch_frame h hno
  exact hir

/-! ## Who writes memory and the output -/

/-- A host command that changes a cell is a write at its address, or reset (R41). -/
theorem hostExec_changes_cell {c : HostCommand} {s t : State} {a : Nat} (hwf : s.mem.wf = true)
    (h : hostExec c s = .next t) (hne : t.mem.read a ≠ s.mem.read a) :
    (∃ w, c = .loadWord a w) ∨ (∃ n, c = .setMemoryCell a n) ∨ c = .reset := by
  rcases hostExec_next h with ⟨_, rfl⟩ | ⟨addr, v, ⟨hlo, -⟩, hc, rfl⟩ | ⟨-, -, rfl⟩ | ⟨rfl, -⟩
  · exact absurd rfl hne
  · have ha : a = addr.toNat := by_contra fun hother =>
      hne ((Memory.read_write v a hwf).trans (if_neg hother))
    have haddr : addr = (a : Int) := by omega
    subst haddr
    rcases hc with hc | hc
    · exact .inl ⟨v, hc⟩
    · exact .inr (.inl hc)
  · exact absurd rfl hne
  · exact .inr (.inr rfl)

/-- Settles O31: a step of a run keeps memory, and of the host's commands only these write it. -/
theorem onlyTheHostWritesMemory : Obligations.OnlyTheHostWritesMemory := by
  intro s t a hwf h hne
  have hr : s.status ≠ .running := by
    intro hr
    obtain ⟨hmem, -, -⟩ := step_running_frame hr h
    exact hne (by rw [hmem])
  rw [step_host hr] at h
  rcases hostStep_next h with ⟨-, rfl⟩ | ⟨c, rest, hq, hc⟩
  · exact absurd rfl hne
  · exact ⟨hr, c, rest, hq, hostExec_changes_cell (s := s.setHostQueue rest) hwf hc hne⟩

/-- Settles O32: the execute phase writes the output for TRAP x21 alone, and a step that executes nothing does not. -/
theorem onlyOutAppendsToTheStream : Obligations.OnlyOutAppendsToTheStream := by
  intro s t h
  rcases fetches_or_not s with ⟨w, hf⟩ | hno
  · rw [step_fetches hf] at h
    rcases exec_output h with hout | ⟨ign, hi, hout⟩
    · exact .inl hout
    · exact .inr ⟨w, hf, (and_trapMask_eq_iff w 15#4 Config.outVector).2 (fields_of_decode_trapOut hi), hout⟩
  · obtain ⟨-, -, hout⟩ := step_no_fetch_frame h hno
    exact .inl hout

end Sys2Proof.Machine
end

section
/-!
PROOF. The invariant (10_state.md R24, R28, R30; 60_exceptions.md R108): it holds at power-on; what it asks of a RUNNING, a
HALTED and a FAULTED state; and every step of a run and every host command keeps it.
-/
namespace Sys2Proof.Machine

open Sys2Proof.Claims

/-- Settles O54: power-on is IDLE with the power-on values, and nothing is recorded. -/
theorem invariantHoldsAtPowerOn : Obligations.InvariantHoldsAtPowerOn where
  memWf := Memory.wf_nil
  cc := .inl rfl
  idle := fun _ => ⟨rfl, rfl, rfl, rfl, rfl⟩
  record := by decide
  recordRange := fun _ h => nomatch h
  halted := fun h => nomatch h

/-! ## What the invariant asks of each status after IDLE -/

theorem inv_of_running {t : State} (hst : t.status = .running) (hmem : t.mem.wf = true) (hcc : ccLegal t.cc)
    (hrec : t.faultRecord = none) : t.Inv where
  memWf := hmem
  cc := hcc
  idle := by simp [hst]
  record := by simp [hst, hrec]
  recordRange := by simp [hrec]
  halted := by simp [hst]

theorem inv_of_halted {t : State} (hst : t.status = .halted) (hmem : t.mem.wf = true) (hcc : ccLegal t.cc)
    (hrec : t.faultRecord = none) (hend : isHaltWord t.ir ∧ 1 ≤ uval t.pc ∧ uval t.pc ≤ 50) : t.Inv where
  memWf := hmem
  cc := hcc
  idle := by simp [hst]
  record := by simp [hst, hrec]
  recordRange := by simp [hrec]
  halted := fun _ => hend

theorem inv_of_faulted {t : State} {e : OutOfRangeError} (hst : t.status = .faulted) (hmem : t.mem.wf = true)
    (hcc : ccLegal t.cc) (hrec : t.faultRecord = some e) (hrange : runErrorInRange e) : t.Inv where
  memWf := hmem
  cc := hcc
  idle := by simp [hst]
  record := by simp [hst, hrec]
  recordRange := fun _ h => Option.some.inj (hrec.symm.trans h) ▸ hrange
  halted := by simp [hst]

theorem State.Inv.faultRecord_eq_none {s : State} (h : s.Inv) (hst : s.status ≠ .faulted) : s.faultRecord = none := by
  have hrec := h.record
  simpa [hst] using hrec

/-! ## A step of a run keeps it -/

theorem ccLegal_setcc (r : Word) : ccLegal (setcc r) := .inr (setcc_oneHot r)

/-- The record of a fetch out of range (R108). -/
theorem runErrorInRange_fetch {pc : Word} (h : ¬ uval pc < Config.memSize) :
    runErrorInRange { cause := .oorFetch, addr := uval pc } := by
  have hlo : 50 ≤ pc.toNat := Nat.not_lt.1 h
  have hhi : pc.toNat < 65536 := pc.isLt
  exact .inl ⟨rfl, Int.ofNat_le.2 hlo, Int.ofNat_le.2 (Nat.le_of_lt_succ hhi)⟩

/-- The record of an LD out of range: its incremented `pc` is in [1, 50] and its offset in [-256, 255] (R93, R108). -/
theorem runErrorInRange_ld {pc : Word} {off9 : BitVec 9} (hpc : 1 ≤ uval pc ∧ uval pc ≤ 50)
    (h : ¬ addressExists (loadAddress pc off9)) :
    runErrorInRange { cause := .oorLd, addr := loadAddress pc off9 } := by
  have hout := not_addressExists_iff.1 h
  have heq := loadAddress_eq pc off9
  have hoff : -256 ≤ off9.toInt ∧ off9.toInt ≤ 255 := off9_range off9
  simp only [uval] at hpc
  have hlo : -255 ≤ loadAddress pc off9 := by omega
  have hhi : loadAddress pc off9 ≤ 305 := by omega
  exact .inr ⟨rfl, hlo, hhi, hout⟩

/-- After a fetch `pc` is in [1, 50] (R71). -/
theorem fetched_pc_range {s : State} (h : uval s.pc < Config.memSize) :
    1 ≤ uval s.fetched.pc ∧ uval s.fetched.pc ≤ 50 := by
  have hlt : s.pc.toNat < 50 := h
  have hpc : uval s.fetched.pc = uval s.pc + 1 := incrementByOne_toNat (h.trans (by decide))
  simp only [uval] at hpc ⊢
  omega

theorem step_running_inv {s t : State} (hinv : s.Inv) (hr : s.status = .running) (h : step s = .next t) : t.Inv := by
  have hmem := hinv.memWf
  have hcc := hinv.cc
  have hrec := hinv.faultRecord_eq_none (by simp [hr])
  rcases step_running_cases hr with ⟨hp, he⟩ | ⟨hp, he | ⟨_, _, -, -, he⟩ | ⟨dr, v, he⟩ | ⟨ign, hi, he⟩ | ⟨_, -, he⟩ |
    ⟨_, _, -, hout, he⟩⟩ <;> cases h.symm.trans he
  case inl => exact inv_of_faulted rfl hmem hcc rfl (runErrorInRange_fetch hp)
  case inr.inl => exact inv_of_running hr hmem hcc hrec
  case inr.inr.inl => exact inv_of_running hr hmem hcc hrec
  case inr.inr.inr.inl => exact inv_of_running hr hmem (ccLegal_setcc v) hrec
  case inr.inr.inr.inr.inl =>
    exact inv_of_halted rfl hmem hcc hrec ⟨(isHaltWord_iff_decode _).2 ⟨ign, hi⟩, fetched_pc_range hp⟩
  case inr.inr.inr.inr.inr.inl => exact inv_of_running hr hmem hcc hrec
  case inr.inr.inr.inr.inr.inr =>
    exact inv_of_faulted rfl hmem hcc rfl (runErrorInRange_ld (fetched_pc_range hp) hout)

/-! ## A host command keeps it -/

section
variable {s : State} (h : s.Inv)
include h

theorem State.Inv.setHostQueue (q : List HostCommand) : (s.setHostQueue q).Inv :=
  ⟨h.memWf, h.cc, h.idle, h.record, h.recordRange, h.halted⟩

theorem State.Inv.pushReply (r : HostReply) : (s.pushReply r).Inv :=
  ⟨h.memWf, h.cc, h.idle, h.record, h.recordRange, h.halted⟩

theorem State.Inv.setMem {m : Memory} (hm : m.wf = true) : (s.setMem m).Inv :=
  ⟨hm, h.cc, h.idle, h.record, h.recordRange, h.halted⟩

theorem State.Inv.setRegs_powerOnRegs : (s.setRegs powerOnRegs).Inv where
  memWf := h.memWf
  cc := h.cc
  idle hi := ⟨rfl, (h.idle hi).2⟩
  record := h.record
  recordRange := h.recordRange
  halted := h.halted

theorem hostExec_inv {c : HostCommand} {t : State} (hc : hostExec c s = .next t) : t.Inv := by
  rcases hostExec_next hc with ⟨r, rfl⟩ | ⟨addr, v, ⟨hlo, hhi⟩, -, rfl⟩ | ⟨-, hst, rfl⟩ | ⟨-, rfl⟩
  · exact h.pushReply r
  · exact (h.setMem (Memory.write_wf v h.memWf (by omega))).pushReply .done
  · exact inv_of_running rfl h.memWf h.cc (h.faultRecord_eq_none hst)
  · exact (h.setRegs_powerOnRegs.setMem Memory.wf_nil).pushReply .done

theorem step_host_inv {t : State} (hr : s.status ≠ .running) (hs : step s = .next t) : t.Inv := by
  rw [step_host hr] at hs
  rcases hostStep_next hs with ⟨-, rfl⟩ | ⟨_, rest, -, hc⟩
  · exact h
  · exact hostExec_inv (h.setHostQueue rest) hc

end

/-- Settles O55: a step of a run by its cases, and any other step by the command it takes. -/
theorem everyStepKeepsTheInvariant : Obligations.EveryStepKeepsTheInvariant := by
  intro s t hinv h
  by_cases hr : s.status = .running
  · exact step_running_inv hinv hr h
  · exact step_host_inv hinv hr h

end Sys2Proof.Machine
end

section
/-!
PROOF. A run, step by step (40_engine.md R68, R76 to R79): how a step of it ends, what every number of steps keeps, and its
one end.
-/
namespace Sys2Proof.Machine

open Sys2Proof.Claims

/-- Settles O6: a step of a run answers a next state, which is a halt or leaves RUNNING or FAULTED. -/
theorem stepOfARunEndsInOneOfThreeWays : Obligations.StepOfARunEndsInOneOfThreeWays := by
  intro s hr
  obtain ⟨t, h⟩ := step_running_next hr
  refine ⟨t, h, ?_⟩
  rcases step_running_ends hr h with ⟨-, rfl⟩ | ⟨-, hrunning | hfaulted⟩
  · exact .inr (.inl rfl)
  · exact .inl hrunning
  · exact .inr (.inr hfaulted)

/-- What each step of a run keeps, any number of its steps keeps. -/
theorem runSteps_keeps {P : State → Prop} (hstep : ∀ s t, s.status = .running → step s = .next t → P s → P t) (k : Nat)
    {s : State} (h : P s) : P (runSteps k s) := by
  induction k generalizing s with
  | zero => exact h
  | succ k ih =>
    by_cases hr : s.status = .running
    · obtain ⟨t, ht⟩ := step_running_next hr
      rw [runSteps_succ_running hr ht]
      exact ih (hstep s t hr ht h)
    · rwa [runSteps_of_not_running _ hr]

/-- Settles O41: each step of a run keeps memory and the queue and extends the output. -/
theorem aRunKeepsMemoryAndHost : Obligations.ARunKeepsMemoryAndHost := by
  intro s k _
  refine runSteps_keeps (P := fun t => t.mem = s.mem ∧ t.hostQueue = s.hostQueue ∧ s.output <+: t.output)
    (fun t u hr h ⟨hmem, hqueue, hout⟩ => ?_) k ⟨rfl, rfl, List.prefix_rfl⟩
  obtain ⟨hmem', hqueue', hout'⟩ := step_running_frame hr h
  exact ⟨hmem'.trans hmem, hqueue'.trans hqueue, hout.trans hout'⟩

/-! ## The one end of a run (R77) -/

theorem runSteps_add (j k : Nat) (s : State) : runSteps (k + j) s = runSteps j (runSteps k s) := by
  induction k generalizing s with
  | zero => rw [Nat.zero_add, runSteps]
  | succ k ih =>
    rw [Nat.succ_add]
    by_cases hr : s.status = .running
    · obtain ⟨t, ht⟩ := step_running_next hr
      rw [runSteps_succ_running hr ht, runSteps_succ_running hr ht, ih]
    · rw [runSteps_of_not_running _ hr, runSteps_of_not_running _ hr, runSteps_of_not_running _ hr]

/-- More steps leave a run that has ended in the state it ended in. -/
theorem runSteps_of_le {j k : Nat} {s : State} (h : k ≤ j) (hend : (runSteps k s).status ≠ .running) :
    runSteps j s = runSteps k s := by
  obtain ⟨d, rfl⟩ := Nat.exists_eq_add_of_le h
  rw [runSteps_add, runSteps_of_not_running d hend]

/-- Two numbers of steps that both end a run end it in the same state. -/
theorem runSteps_end_unique {j k : Nat} {s : State} (hj : (runSteps j s).status ≠ .running)
    (hk : (runSteps k s).status ≠ .running) : runSteps j s = runSteps k s := by
  rcases Nat.le_total k j with h | h
  · exact runSteps_of_le h hk
  · exact (runSteps_of_le h hj).symm

/-- No step of a run leads to IDLE. -/
theorem runSteps_not_idle {s : State} (k : Nat) (hr : s.status = .running) : (runSteps k s).status ≠ .idle := by
  refine runSteps_keeps (P := fun t => t.status ≠ .idle) (fun t u ht h _ => ?_) k (by simp [hr])
  rcases step_running_ends ht h with ⟨-, rfl⟩ | ⟨-, hend | hend⟩ <;> simp [*]

theorem run_end_exists {s : State} (hr : s.status = .running) : EndsWell s ∨ EndsInFault s ∨ Hangs s := by
  by_cases hhangs : Hangs s
  · exact .inr (.inr hhangs)
  · obtain ⟨k, hk⟩ := not_forall.1 hhangs
    cases hst : (runSteps k s).status with
    | idle => exact absurd hst (runSteps_not_idle k hr)
    | running => exact absurd hst hk
    | halted => exact .inl ⟨k, hst⟩
    | faulted => exact .inr (.inl ⟨k, hst⟩)

/-- Settles O40: an ended run stays in the state it ended in, so two ends are the same one. -/
theorem everyRunHasExactlyOneEnd : Obligations.EveryRunHasExactlyOneEnd := by
  intro s hr
  refine ⟨run_end_exists hr, ?_, ?_, ?_⟩
  · rintro ⟨⟨j, hj⟩, k, hk⟩
    have heq := runSteps_end_unique (j := j) (k := k) (s := s) (by simp [hj]) (by simp [hk])
    rw [heq, hk] at hj
    cases hj
  · rintro ⟨⟨j, hj⟩, hhangs⟩
    cases hj.symm.trans (hhangs j)
  · rintro ⟨⟨j, hj⟩, hhangs⟩
    cases hj.symm.trans (hhangs j)

/-! ## The branch to itself (R76, R86) -/

/-- A field that the mask keeps whole is read off the masked word. -/
theorem field_of_and_eq {lo len : Nat} {w m v : Word} (hm : field lo len m = BitVec.allOnes len) (h : w &&& m = v) :
    field lo len w = field lo len v := by
  have hand : field lo len (w &&& m) = field lo len w &&& field lo len m := BitVec.extractLsb'_and
  rw [← h, hand, hm, BitVec.and_allOnes]

/-- A BR of offset -1 goes from the incremented `pc` back to its own address. -/
theorem step_selfBranch {s : State} {w : Word} (hf : Fetches s w) (hw : w &&& 0xF1FF#16 = 0x01FF#16)
    (hcc : w.extractLsb' 9 3 &&& s.cc ≠ 0b000#3) : step s = .next (s.fetched.setPc s.pc) := by
  have hop : field 12 4 w = 0#4 := field_of_and_eq (by decide) hw
  have hoff : w.extractLsb' 0 9 = 0x1FF#9 := field_of_and_eq (lo := 0) (len := 9) (by decide) hw
  have htarget : branchTarget s.fetched.pc (w.extractLsb' 0 9) = s.pc := by
    rw [hoff, branchTarget_eq, fetched_pc_toNat hf]
    exact BitVec.eq_of_toNat_eq (by simp)
  rw [step_br_taken hf ((and_opcodeMask_eq_iff w 0#4).2 hop) (decide_eq_true hcc), htarget]

theorem hangs_of_selfBranch {s : State} {w : Word} (hf : Fetches s w) (hw : w &&& 0xF1FF#16 = 0x01FF#16)
    (hcc : w.extractLsb' 9 3 &&& s.cc ≠ 0b000#3) : Hangs s := by
  intro k
  have hkeeps : ∀ t u, t.status = .running → step t = .next u →
      Fetches t w ∧ t.cc = s.cc → Fetches u w ∧ u.cc = s.cc := by
    rintro t u - h ⟨hft, hcct⟩
    rw [step_selfBranch hft hw (hcct ▸ hcc)] at h
    cases h
    exact ⟨hft, hcct⟩
  obtain ⟨⟨hr, -, -⟩, -⟩ := runSteps_keeps hkeeps k ⟨hf, rfl⟩
  exact hr

/-- Settles O19: the branch comes back to its own address with the flags as they were; 111 meets any set flag. -/
theorem branchToItselfHangs : Obligations.BranchToItselfHangs := by
  refine ⟨fun s w hf hw hcc => ⟨⟨_, step_selfBranch hf hw hcc, rfl, rfl⟩, hangs_of_selfBranch hf hw hcc⟩,
    fun s hf hcc => hangs_of_selfBranch hf (by decide) ?_⟩
  have hall : (0x0FFF#16).extractLsb' 9 3 &&& s.cc = s.cc := BitVec.allOnes_and
  rwa [hall]

end Sys2Proof.Machine
end

section
/-!
PROOF. ADD's unsigned reading, NOT, LD and BR (41_branch.md R86; 42_operate.md R88, R92; 43_load.md R93): their words, by the
opcode alone, their effect and their frame; and the condition code of a result as logic on its bits (10_state.md R21).
-/
namespace Sys2Proof

theorem decode_of_notReg_mask {w : Word} (h : w &&& 0xF000#16 = 0x9000#16) :
    decode w = .notReg (w.extractLsb' 9 3) (w.extractLsb' 6 3) (w.extractLsb' 0 6) :=
  decode_notReg (opcode_of_mask 9 h)

theorem decode_of_ld_mask {w : Word} (h : w &&& 0xF000#16 = 0x2000#16) :
    decode w = .ld (w.extractLsb' 9 3) (w.extractLsb' 0 9) :=
  decode_ld (opcode_of_mask 2 h)

end Sys2Proof

namespace Sys2Proof.Machine

open Sys2Proof.Claims

/-! ## ADD and NOT -/

/-- Settles O9: the wrapped signed sum is the sum of bit vectors, which both readings share. -/
theorem addIsTheUnsignedSumToo : Obligations.AddIsTheUnsignedSumToo := by
  intro s t dr sr1 sr2 ign h
  cases (exec_addReg s dr sr1 sr2 ign).symm.trans h
  have hsum : wrap16 (sval (s.getReg sr1) + sval (s.getReg sr2)) = s.getReg sr1 + s.getReg sr2 := addWords_eq _ _
  rw [State.writeResult_getReg, if_pos rfl, hsum, BitVec.toNat_add]

theorem exec_notReg (s : State) (dr sr : RegIdx) (ign : BitVec 6) :
    exec (.notReg dr sr ign) s = .next (s.writeResult dr (~~~ s.getReg sr)) := rfl

/-- R35: the complement's signed reading. -/
theorem toInt_complement (v : Word) : (~~~ v).toInt = -v.toInt - 1 := by
  have hv := BitVec.toInt_eq_toNat_cond v
  have hn := BitVec.toInt_eq_toNat_cond (~~~ v)
  rw [BitVec.toNat_not] at hn
  have hlt := v.isLt
  split at hv <;> split at hn <;> omega

/-- Settles O13: NOT writes the complement as its one result. -/
theorem notResultAndFrame : Obligations.NotResultAndFrame := by
  refine ⟨fun _ => decode_of_notReg_mask, fun s dr sr ign =>
    ⟨_, exec_notReg s dr sr ign, writesResult_writeResult s dr _, ?_⟩⟩
  rw [State.writeResult_getReg, if_pos rfl, toInt_complement]

/-! ## LD -/

theorem exec_ld_inside {s : State} {off9 : BitVec 9} {ea : Nat} (dr : RegIdx)
    (hea : (s.pc.toNat : Int) + off9.toInt = ea) (hlt : ea < 50) :
    exec (.ld dr off9) s = .next (s.writeResult dr (s.mem.read ea)) := by
  have haddr : loadAddress s.pc off9 = ea := (loadAddress_eq _ _).trans hea
  have hexists : addressExists (loadAddress s.pc off9) := by
    rw [haddr]
    exact ⟨Int.natCast_nonneg ea, Int.ofNat_lt.2 hlt⟩
  refine (execLd_ok dr hexists).trans ?_
  rw [haddr, Int.toNat_natCast]

theorem exec_ld_outside {s : State} {off9 : BitVec 9} {ea : Int} (dr : RegIdx)
    (hea : (s.pc.toNat : Int) + off9.toInt = ea) (hout : ea < 0 ∨ 50 ≤ ea) :
    exec (.ld dr off9) s = .next (s.raiseInRun { cause := .oorLd, addr := ea }) := by
  have haddr : loadAddress s.pc off9 = ea := (loadAddress_eq _ _).trans hea
  subst haddr
  exact execLd_error dr (not_addressExists_iff.2 hout)

/-- Settles O14: an LD in range writes the cell as its one result. -/
theorem loadInRangeResultAndFrame : Obligations.LoadInRangeResultAndFrame :=
  ⟨fun _ => decode_of_ld_mask, fun s dr _ _ hea hlt =>
    ⟨_, exec_ld_inside dr hea hlt, writesResult_writeResult s dr _⟩⟩

/-- Settles O15: an LD out of range raises, and `raiseInRun` writes the record, the status and the reply alone. -/
theorem loadOutOfRangeFaults : Obligations.LoadOutOfRangeFaults := by
  intro s dr off9 ea hea hout
  have hregs : KeepsRegs s (s.raiseInRun { cause := .oorLd, addr := ea }) := s.raiseInRun_getReg _
  have hcells : KeepsCells s (s.raiseInRun { cause := .oorLd, addr := ea }) := fun _ => rfl
  exact ⟨_, exec_ld_outside dr hea hout, rfl, rfl, rfl, hregs, rfl, rfl, rfl, hcells, rfl, rfl⟩

/-- Settles O16: with `pc` at most 50 the address is in [-256, 305], where only a negative one wraps, to at least 65280. -/
theorem wrappedLoadCheckAgrees : Obligations.WrappedLoadCheckAgrees := by
  intro pc off9 hpc
  have hwrap : ((wrap16 (loadAddress pc off9)).toNat : Int) = loadAddress pc off9 % 65536 := wrap16_toNat _
  have hoff : -256 ≤ off9.toInt ∧ off9.toInt ≤ 255 := off9_range off9
  have haddr := loadAddress_eq pc off9
  simp only [addressExists, Config.memSize]
  omega

/-! ## BR -/

theorem exec_br_taken {s : State} {nzp : BitVec 3} (off9 : BitVec 9) (h : branchTaken nzp s.cc = true) :
    exec (.br nzp off9) s = .next (s.setPc (BitVec.ofInt 16 ((s.pc.toNat : Int) + off9.toInt))) := by
  rw [← branchTarget_eq]
  exact execBr_taken off9 h

/-- A write of `pc` leaves everything else as it was. -/
theorem setPc_frame (s : State) (v : Word) :
    KeepsRegs s (s.setPc v) ∧ (s.setPc v).cc = s.cc ∧ (s.setPc v).ir = s.ir ∧ KeepsCells s (s.setPc v) ∧
    (s.setPc v).output = s.output ∧ KeepsRun s (s.setPc v) :=
  ⟨s.setPc_getReg v, rfl, rfl, fun _ => rfl, rfl, rfl, rfl, rfl, rfl⟩

/-- Settles O17, by whether the branch is taken: a branch that is not writes the `pc` it finds. -/
theorem branchEffectAndFrame : Obligations.BranchEffectAndFrame := by
  refine ⟨fun _ => decode_of_br_mask, fun s nzp off9 => ?_⟩
  by_cases ht : branchTaken nzp s.cc = true
  · obtain ⟨k, hk, hset⟩ := (branchTaken_iff nzp s.cc).1 ht
    exact ⟨_, exec_br_taken off9 ht, fun _ => rfl, fun hno => absurd hset (hno k hk), setPc_frame s _⟩
  · exact ⟨_, execBr_notTaken off9 ht, fun hyes => absurd ((branchTaken_iff nzp s.cc).2 hyes) ht, fun _ => rfl,
      setPc_frame s s.pc⟩

/-! ## The condition code as logic (R21) -/

theorem flags_setcc (r : Word) :
    (flagN (setcc r) = true ↔ sval r < 0) ∧ (flagZ (setcc r) = true ↔ r = 0) ∧ (flagP (setcc r) = true ↔ 0 < sval r) := by
  rcases setcc_cases r with ⟨hneg, hc⟩ | ⟨rfl, hc⟩ | ⟨hpos, hc⟩ <;> rw [hc]
  · have hz : r ≠ 0 := by rintro rfl; exact absurd hneg (by decide)
    exact ⟨iff_of_true (by decide) hneg, iff_of_false (by decide) hz, iff_of_false (by decide) hneg.asymm⟩
  · decide
  · have hz : r ≠ 0 := by rintro rfl; exact absurd hpos (by decide)
    exact ⟨iff_of_false (by decide) hpos.asymm, iff_of_false (by decide) hz, iff_of_true (by decide) hpos⟩

theorem sval_neg_iff (r : Word) : sval r < 0 ↔ r.getLsbD 15 = true := by
  rw [← BitVec.msb_eq_getLsbD_last, BitVec.msb_eq_toInt, decide_eq_true_iff]

theorem eq_zero_iff_bits (r : Word) : r = 0 ↔ ∀ k, k < 16 → r.getLsbD k = false := by
  rw [BitVec.eq_of_getLsbD_eq_iff]
  simp

theorem sval_pos_iff (r : Word) : 0 < sval r ↔ r.getLsbD 15 = false ∧ ∃ k, k < 15 ∧ r.getLsbD k = true := by
  have hz : sval r = 0 ↔ r = 0 := BitVec.toInt_inj (y := 0)
  have hsplit : 0 < sval r ↔ ¬ sval r < 0 ∧ ¬ sval r = 0 := by omega
  rw [hsplit, sval_neg_iff, hz, eq_zero_iff_bits, Bool.not_eq_true]
  refine and_congr_right fun htop => ?_
  constructor
  · intro h
    push Not at h
    obtain ⟨k, hk, hset⟩ := h
    have hne : k ≠ 15 := by rintro rfl; exact hset htop
    exact ⟨k, by omega, by simpa using hset⟩
  · rintro ⟨k, hk, hset⟩ hzero
    cases hset.symm.trans (hzero k (by omega))

/-- Settles O25: each flag says the sign, and the sign is read off the bits. -/
theorem conditionCodeAsLogic : Obligations.ConditionCodeAsLogic := by
  intro r
  obtain ⟨hn, hz, hp⟩ := flags_setcc r
  exact ⟨Bool.eq_iff_iff.2 (hn.trans (sval_neg_iff r)), hz.trans (eq_zero_iff_bits r), hp.trans (sval_pos_iff r)⟩

end Sys2Proof.Machine
end

section
/-!
PROOF. What the execute phase can depend on (10_state.md R13, 60_exceptions.md R119): a result is computed from the source
registers alone, so an unread register, the output and the host side have no influence; and what makes a step of a run fault
(60_exceptions.md R108).
-/
namespace Sys2Proof.Machine

open Sys2Proof.Claims

/-! ## How each instruction depends on the state -/

/-- `f` reads no register but those of `l`, and nothing else of the state. -/
def ReadsOnly (l : List RegIdx) (f : State → Word) : Prop :=
  ∀ s s' : State, (∀ q ∈ l, s.getReg q = s'.getReg q) → f s = f s'

theorem readsOnly_one (g : Word → Word) (a : RegIdx) : ReadsOnly [a] fun s => g (s.getReg a) :=
  fun _ _ h => congrArg g (h a List.mem_cons_self)

theorem readsOnly_two (g : Word → Word → Word) (a b : RegIdx) : ReadsOnly [a, b] fun s => g (s.getReg a) (s.getReg b) :=
  fun _ _ h => congrArg₂ g (h a List.mem_cons_self) (h b (List.mem_cons_of_mem a List.mem_cons_self))

/-- Every instruction but BR, LD and the two recognised TRAPs does nothing, or writes to its destination a result that it
computes from its sources. -/
theorem exec_forms (i : Instr) :
    (∀ s, exec i s = .next s) ∨
    (∃ dr f, dest i = some dr ∧ ReadsOnly (sources i) f ∧ ∀ s, exec i s = .next (s.writeResult dr (f s))) ∨
    (∃ nzp off9, i = .br nzp off9) ∨ (∃ dr off9, i = .ld dr off9) ∨
    (∃ ign, i = .trapHalt ign) ∨ (∃ ign, i = .trapOut ign) := by
  cases i with
  | addReg dr sr1 _ sr2 => exact .inr (.inl ⟨dr, _, rfl, readsOnly_two addWords sr1 sr2, fun _ => rfl⟩)
  | addImm dr sr1 imm5 => exact .inr (.inl ⟨dr, _, rfl, readsOnly_one (addWords · (sext16 imm5)) sr1, fun _ => rfl⟩)
  | andReg dr sr1 _ sr2 => exact .inr (.inl ⟨dr, _, rfl, readsOnly_two andWords sr1 sr2, fun _ => rfl⟩)
  | andImm dr sr1 imm5 => exact .inr (.inl ⟨dr, _, rfl, readsOnly_one (andWords · (sext16 imm5)) sr1, fun _ => rfl⟩)
  | notReg dr sr _ => exact .inr (.inl ⟨dr, _, rfl, readsOnly_one invert sr, fun _ => rfl⟩)
  | br nzp off9 => exact .inr (.inr (.inl ⟨nzp, off9, rfl⟩))
  | ld dr off9 => exact .inr (.inr (.inr (.inl ⟨dr, off9, rfl⟩)))
  | trapHalt ign => exact .inr (.inr (.inr (.inr (.inl ⟨ign, rfl⟩))))
  | trapOut ign => exact .inr (.inr (.inr (.inr (.inr ⟨ign, rfl⟩))))
  | trapNop ign vec => exact .inl (exec_trapNop ign vec)
  | ignored3 ign => exact .inl fun s => exec_ignored s (.op3 ign)
  | ignored4 ign => exact .inl fun s => exec_ignored s (.op4 ign)
  | ignored6 ign => exact .inl fun s => exec_ignored s (.op6 ign)
  | ignored7 ign => exact .inl fun s => exec_ignored s (.op7 ign)
  | ignored8 ign => exact .inl fun s => exec_ignored s (.op8 ign)
  | ignored10 ign => exact .inl fun s => exec_ignored s (.op10 ign)
  | ignored11 ign => exact .inl fun s => exec_ignored s (.op11 ign)
  | ignored12 ign => exact .inl fun s => exec_ignored s (.op12 ign)
  | ignored13 ign => exact .inl fun s => exec_ignored s (.op13 ign)
  | ignored14 ign => exact .inl fun s => exec_ignored s (.op14 ign)

/-! ## An unread register (R13) -/

section
variable (s : State) (q : RegIdx) (v : Word)

/-- A result overwrites what its destination held. -/
theorem writeResult_setReg_same (r : Word) : (s.setReg q v).writeResult q r = s.writeResult q r := by
  simp [State.writeResult, State.setReg, State.setCc]

theorem writeResult_setReg_of_ne {dr : RegIdx} (h : q ≠ dr) (r : Word) :
    (s.setReg q v).writeResult dr r = (s.writeResult dr r).setReg q v := by
  have hne : q.toNat ≠ dr.toNat := fun heq => h (BitVec.eq_of_toNat_eq heq)
  simp [State.writeResult, State.setReg, State.setCc, Vector.set_comm _ _ hne]

theorem ReadsOnly.setReg {l : List RegIdx} {f : State → Word} (hf : ReadsOnly l f) (hq : q ∉ l) :
    f (s.setReg q v) = f s :=
  hf _ _ fun a ha => (State.getReg_setReg s q a v).trans (if_neg fun heq : a = q => hq (heq ▸ ha))

/-- Whatever stands in an unread register, the instruction does the same and leaves it there, or overwrites it. -/
def IgnoresReg (i : Instr) : Prop :=
  ∀ t, exec i s = .next t →
    exec i (s.setReg q v) = .next (t.setReg q v) ∨ (dest i = some q ∧ exec i (s.setReg q v) = .next t)

variable {s q v}

theorem ignoresReg_of_frame {i : Instr} {t : State} (h : exec i s = .next t)
    (h' : exec i (s.setReg q v) = .next (t.setReg q v)) : IgnoresReg s q v i := by
  intro u hu
  cases h.symm.trans hu
  exact .inl h'

theorem ignoresReg_of_result {i : Instr} {dr : RegIdx} {r : Word} (hd : dest i = some dr)
    (h : exec i s = .next (s.writeResult dr r))
    (h' : exec i (s.setReg q v) = .next ((s.setReg q v).writeResult dr r)) : IgnoresReg s q v i := by
  by_cases hq : q = dr
  · subst hq
    intro u hu
    cases h.symm.trans hu
    rw [writeResult_setReg_same] at h'
    exact .inr ⟨hd, h'⟩
  · rw [writeResult_setReg_of_ne s q v hq] at h'
    exact ignoresReg_of_frame h h'

theorem ignoresReg_br (nzp : BitVec 3) (off9 : BitVec 9) : IgnoresReg s q v (.br nzp off9) := by
  by_cases ht : branchTaken nzp s.cc = true
  · exact ignoresReg_of_frame (exec_br_taken off9 ht) (exec_br_taken (s := s.setReg q v) off9 ht)
  · exact ignoresReg_of_frame (execBr_notTaken off9 ht) (execBr_notTaken (s := s.setReg q v) off9 ht)

theorem ignoresReg_ld (dr : RegIdx) (off9 : BitVec 9) : IgnoresReg s q v (.ld dr off9) := by
  by_cases h : addressExists (loadAddress s.pc off9)
  · exact ignoresReg_of_result rfl (execLd_ok dr h) (execLd_ok (s := s.setReg q v) dr h)
  · exact ignoresReg_of_frame (execLd_error dr h) (execLd_error (s := s.setReg q v) dr h)

theorem ignoresReg_of_not_mem_sources {i : Instr} (hq : q ∉ sources i) : IgnoresReg s q v i := by
  rcases exec_forms i with h | ⟨dr, f, hd, hf, h⟩ | ⟨nzp, off9, rfl⟩ | ⟨dr, off9, rfl⟩ | ⟨ign, rfl⟩ | ⟨ign, rfl⟩
  · exact ignoresReg_of_frame (h s) (h _)
  · have hres := h (s.setReg q v)
    rw [hf.setReg s q v hq] at hres
    exact ignoresReg_of_result hd (h s) hres
  · exact ignoresReg_br nzp off9
  · exact ignoresReg_ld dr off9
  · exact ignoresReg_of_frame (exec_trapHalt ign s) (exec_trapHalt ign (s.setReg q v))
  · have hne : (0 : RegIdx) ≠ q := fun heq => hq (List.mem_singleton.2 heq.symm)
    have hout := exec_trapOut ign (s.setReg q v)
    rw [State.getReg_setReg, if_neg hne] at hout
    exact ignoresReg_of_frame (exec_trapOut ign s) hout

end

/-- Settles O28: a result is computed from the sources, and no other effect reads or writes a register but TRAP x21's. -/
theorem unreadRegistersHaveNoInfluence : Obligations.UnreadRegistersHaveNoInfluence :=
  fun _ _ t _ _ hq h => ignoresReg_of_not_mem_sources hq t h

/-! ## The output and the host side (R119, R120) -/

/-- `s` with other contents in the three fields that a run cannot read. -/
def State.withHostSide (s : State) (l : List Byte) (q : List HostCommand) (r : List HostReply) : State :=
  { s with output := l, hostQueue := q, replies := r }

/-- The two states agree but for the output and the host side. -/
def SameRun (t' t : State) : Prop := t'.withHostSide [] [] [] = t.withHostSide [] [] []

theorem SameRun.fields {t' t : State} (h : SameRun t' t) :
    t'.regs = t.regs ∧ t'.pc = t.pc ∧ t'.ir = t.ir ∧ t'.cc = t.cc ∧ t'.mem = t.mem ∧ t'.status = t.status ∧
    t'.faultRecord = t.faultRecord := by
  simpa [SameRun, State.withHostSide] using h

section
variable {s : State} {l : List Byte} {q : List HostCommand} {r : List HostReply}

theorem exec_withHostSide (i : Instr) {t : State} (ht : exec i s = .next t) :
    ∃ t', exec i (s.withHostSide l q r) = .next t' ∧ SameRun t' t := by
  rcases exec_forms i with h | ⟨dr, f, -, hf, h⟩ | ⟨nzp, off9, rfl⟩ | ⟨dr, off9, rfl⟩ | ⟨ign, rfl⟩ | ⟨ign, rfl⟩
  · cases (h s).symm.trans ht
    exact ⟨_, h _, rfl⟩
  · have hres := h (s.withHostSide l q r)
    rw [hf (s.withHostSide l q r) s fun _ _ => rfl] at hres
    cases (h s).symm.trans ht
    exact ⟨_, hres, rfl⟩
  · by_cases htaken : branchTaken nzp s.cc = true
    · cases (exec_br_taken off9 htaken).symm.trans ht
      exact ⟨_, exec_br_taken (s := s.withHostSide l q r) off9 htaken, rfl⟩
    · cases (execBr_notTaken off9 htaken).symm.trans ht
      exact ⟨_, execBr_notTaken (s := s.withHostSide l q r) off9 htaken, rfl⟩
  · by_cases hin : addressExists (loadAddress s.pc off9)
    · cases (execLd_ok dr hin).symm.trans ht
      exact ⟨_, execLd_ok (s := s.withHostSide l q r) dr hin, rfl⟩
    · cases (execLd_error dr hin).symm.trans ht
      exact ⟨_, execLd_error (s := s.withHostSide l q r) dr hin, rfl⟩
  · cases (exec_trapHalt ign s).symm.trans ht
    exact ⟨_, exec_trapHalt ign _, rfl⟩
  · cases (exec_trapOut ign s).symm.trans ht
    exact ⟨_, exec_trapOut ign _, rfl⟩

theorem step_withHostSide {t : State} (hr : s.status = .running) (ht : step s = .next t) :
    ∃ t', step (s.withHostSide l q r) = .next t' ∧ SameRun t' t := by
  by_cases hp : uval s.pc < Config.memSize
  · rw [step_fetched hr hp] at ht
    rw [step_fetched (s := s.withHostSide l q r) hr hp]
    exact exec_withHostSide (s := s.fetched) _ ht
  · cases (step_fetchError hr hp).symm.trans ht
    exact ⟨_, step_fetchError (s := s.withHostSide l q r) hr hp, rfl⟩

end

/-- Settles O33: the fetch and the execute phase read none of the three fields. -/
theorem aRunCannotReadItsOutput : Obligations.ARunCannotReadItsOutput := by
  intro s t l q r hr h
  obtain ⟨t', ht', hsame⟩ := step_withHostSide (l := l) (q := q) (r := r) hr h
  exact ⟨t', ht', hsame.fields⟩

/-! ## What faults a run (R75, R108) -/

/-- The execute phase faults for an LD out of range and for nothing else. -/
theorem exec_faults {i : Instr} {s t : State} (hr : s.status = .running) (h : exec i s = .next t) :
    (LdOutside i s ∧ ∃ e, t = s.raiseInRun e) ∨ (¬ LdOutside i s ∧ t.status ≠ .faulted) := by
  by_cases hout : LdOutside i s
  · obtain ⟨dr, off9, rfl, hrange⟩ := hout
    cases (exec_ld_outside dr rfl hrange).symm.trans h
    exact .inl ⟨⟨dr, off9, rfl, hrange⟩, _, rfl⟩
  · refine .inr ⟨hout, ?_⟩
    rcases exec_cases i s with he | ⟨_, _, -, -, he⟩ | ⟨_, _, he⟩ | ⟨_, -, he⟩ | ⟨_, -, he⟩ | ⟨dr, off9, rfl, hno, -⟩
    case inr.inr.inr.inr.inr => exact absurd ((ldOutside_ld_iff dr off9 s).2 hno) hout
    all_goals
      cases h.symm.trans he
      simp [hr]

/-- The next step of the run raises: its fetch is out of range, or it fetches an LD that is (R108). -/
def RaisesNext (s : State) : Prop :=
  50 ≤ s.pc.toNat ∨ ∃ w, Fetches s w ∧ LdOutside (decode w) { s with ir := w, pc := s.pc + 1#16 }

theorem raisesNext_iff_of_fetches {s : State} {w : Word} (hf : Fetches s w) :
    RaisesNext s ↔ LdOutside (decode w) { s with ir := w, pc := s.pc + 1#16 } := by
  have ⟨_, hp, hw⟩ := hf
  constructor
  · rintro (hge | ⟨w', ⟨-, -, hw'⟩, hout⟩)
    · exact absurd hp (Nat.not_lt.2 hge)
    · cases hw.symm.trans hw'
      exact hout
  · exact fun hout => .inr ⟨w, hf, hout⟩

theorem step_running_faults {s t : State} (hr : s.status = .running) (h : step s = .next t) :
    (RaisesNext s ∧ ∃ (u : State) (e : OutOfRangeError), t = u.raiseInRun e ∧ u.replies = s.replies) ∨
    (¬ RaisesNext s ∧ t.status ≠ .faulted) := by
  rcases fetches_or_not s with ⟨w, hf⟩ | hno
  · rw [step_fetches hf, fetched_eq hf] at h
    rw [raisesNext_iff_of_fetches hf]
    rcases exec_faults (s := { s with ir := w, pc := s.pc + 1#16 }) hr h with ⟨hout, e, rfl⟩ | hend
    · exact .inl ⟨hout, _, e, rfl, rfl⟩
    · exact .inr hend
  · have hp := hno.resolve_left (not_not_intro hr)
    cases (step_fetch_outside hr hp).symm.trans h
    exact .inl ⟨.inl hp, s, _, rfl, rfl⟩

/-- Settles O37: the two causes, and what `raiseInRun` records and returns. -/
theorem onlyRangeErrorsFaultARun : Obligations.OnlyRangeErrorsFaultARun := by
  intro s t hr h
  rcases step_running_faults hr h with ⟨hcause, u, e, rfl, hreplies⟩ | ⟨hno, hst⟩
  · exact ⟨iff_of_true rfl hcause, fun _ => ⟨e, rfl, by rw [State.raiseInRun_replies, hreplies]⟩⟩
  · exact ⟨iff_of_false hst hno, fun hfaulted => absurd hfaulted hst⟩

end Sys2Proof.Machine
end

section
/-!
PROOF. The step's fetch of one word, and `withFetchWord` (40_engine.md R68, R70; log 7).
-/
namespace Sys2Proof.Machine

open Sys2Proof.Claims

/-- Settles O4: a completed fetch leaves `ir` and `pc` written, and the step executes what it decodes. -/
theorem stepRunsTheDecodedInstruction : Obligations.StepRunsTheDecodedInstruction := by
  intro s w hf
  refine ⟨decode_wf w, ?_⟩
  rw [step_fetches hf, fetched_eq hf]

/-- Settles O5: the fetch raises, and `raiseInRun` writes these three fields. -/
theorem fetchOutOfRangeFaults : Obligations.FetchOutOfRangeFaults := fun _ => step_fetch_outside

theorem tableWord_toNat (w : Word) : tableWord 16 w.toNat = w := by
  rw [tableWord, Nat.mod_eq_of_lt w.isLt, BitVec.ofNat_toNat, BitVec.setWidth_eq]

theorem withFetchWord_pc_lt (s : State) (nbits w : Nat) : (s.withFetchWord nbits w).pc.toNat < 50 := by
  simp only [State.withFetchWord, State.setStatus_pc, State.setMem_pc, State.setPc_pc]
  split
  · assumption
  · decide

theorem fetches_withFetchWord {s : State} (w : Word) (hwf : s.mem.wf = true) :
    Fetches (s.withFetchWord 16 w.toNat) w := by
  have hread : (s.withFetchWord 16 w.toNat).mem.read (s.withFetchWord 16 w.toNat).pc.toNat = tableWord 16 w.toNat :=
    (Memory.read_write _ _ hwf).trans (if_pos rfl)
  exact ⟨rfl, withFetchWord_pc_lt s 16 w.toNat, hread.trans (tableWord_toNat w)⟩

/-- Settles O7: the next fetch reads the word that was placed. -/
theorem withFetchWordIsRunNext : Obligations.WithFetchWordIsRunNext := by
  intro s w hwf
  have hf := fetches_withFetchWord w hwf
  rw [step_fetches hf, fetched_eq hf]

end Sys2Proof.Machine
end

section
/-!
PROOF. The start of a run and the host's commands (40_engine.md R69, R78 to R85; 60_exceptions.md R110, R122;
70_reset_and_hazards.md R123 to R127): `run` in each status, setMemoryCell, the observations, and what FAULTED and HALTED
keep.
-/
namespace Sys2Proof.Machine

open Sys2Proof.Claims

/-! ## How a run starts (R69, R78, R124) -/

/-- Settles O34: in these two statuses the run command is accepted, and it changes the status alone. -/
theorem runStartsFromTheStateAsItIs : Obligations.RunStartsFromTheStateAsItIs := by
  intro s rest hst hq
  have hrunning : s.status ≠ .running := by rcases hst with h | h <;> simp [h]
  have hfaulted : s.status ≠ .faulted := by rcases hst with h | h <;> simp [h]
  exact step_run ⟨hrunning, hq⟩ hfaulted

/-- Settles O35: in IDLE the invariant gives `pc` = 0, and the run starts from the state as it is. -/
theorem firstRunFetchesAddressZero : Obligations.FirstRunFetchesAddressZero := by
  intro s rest hinv hidle hq
  obtain ⟨-, hpc, -⟩ := hinv.idle hidle
  refine ⟨_, runStartsFromTheStateAsItIs s rest (.inl hidle) hq, ?_⟩
  have hf : Fetches { s with status := .running, hostQueue := rest } (s.mem.read 0) := by
    refine ⟨rfl, ?_, ?_⟩ <;> simp [hpc]
  rw [step_fetches hf, fetched_eq hf]
  simp [hpc]

/-- Settles O43: the fields of `State.reset`. -/
theorem powerOnRunState : Obligations.PowerOnRunState := ⟨rfl, rfl, rfl, rfl, rfl, rfl, rfl⟩

/-- Settles O44: the reset command writes the registers, the memory and the reply. -/
theorem resetCommandLeavesTheRest : Obligations.ResetCommandLeavesTheRest :=
  fun _ _ h => ⟨_, step_gives h, rfl, rfl, rfl, rfl, rfl, rfl, rfl, rfl⟩

/-! ## Memory commands and observations (R40, R81 to R83) -/

theorem addressExists_natCast {a : Nat} (h : a < 50) : addressExists a := ⟨Int.natCast_nonneg a, Int.ofNat_lt.2 h⟩

/-- Settles O53, by whether the address exists. -/
theorem memReadChecksTheRange : Obligations.MemReadChecksTheRange := by
  refine fun m c addr => ⟨?_, fun hout => memRead_error c (not_addressExists_iff.2 hout)⟩
  rintro a rfl ha
  exact memRead_ok c (addressExists_natCast ha)

theorem hostGetMemoryCell_ok {a : Nat} (s : State) (h : a < 50) :
    hostGetMemoryCell a s = .next (s.pushReply (.cell (s.mem.read a))) := by
  rw [hostGetMemoryCell, memRead_ok _ (addressExists_natCast h), Int.toNat_natCast]

theorem hostGetMemoryCell_error {addr : Int} (s : State) (h : ¬ addressExists addr) :
    hostGetMemoryCell addr s = .next (s.pushReply (.error { cause := .oorHostGet, addr })) := by
  rw [hostGetMemoryCell, memRead_error _ h]

/-- Settles O47: each command pushes its reply on the state whose queue has lost it. -/
theorem observationsChangeNothing : Obligations.ObservationsChangeNothing := by
  intro s rest
  refine ⟨fun addr hg hlt => ?cell, fun addr hg hout => ?error, fun c r hcr hg => ?copy⟩
  case cell => exact (step_gives hg).trans (hostGetMemoryCell_ok (s.setHostQueue rest) hlt)
  case error => exact (step_gives hg).trans (hostGetMemoryCell_error _ (not_addressExists_iff.2 hout))
  case copy =>
    simp only [List.mem_cons, Prod.mk.injEq, List.not_mem_nil, or_false] at hcr
    rcases hcr with ⟨rfl, rfl⟩ | ⟨rfl, rfl⟩ | ⟨rfl, rfl⟩ | ⟨rfl, rfl⟩ | ⟨rfl, rfl⟩ | ⟨rfl, rfl⟩ | ⟨rfl, rfl⟩ <;>
      exact step_gives hg

theorem hostSetMemoryCell_ok {value : Int} (addr : Int) (s : State) (h : -32768 ≤ value ∧ value ≤ 32767) :
    hostSetMemoryCell addr value s = hostWrite .oorHostSet addr (wrap16 value) s := by
  rw [hostSetMemoryCell, setSigned_some h]
  rfl

theorem hostSetMemoryCell_refused {value : Int} (addr : Int) (s : State) (h : ¬ (-32768 ≤ value ∧ value ≤ 32767)) :
    hostSetMemoryCell addr value s = .refused (.setMemoryCellValue value) := by
  rw [hostSetMemoryCell, setSigned_none h]

theorem step_setMemoryCell {s : State} {addr value : Int} {rest : List HostCommand}
    (h : Gives s (.setMemoryCell addr value) rest) : step s = hostSetMemoryCell addr value (s.setHostQueue rest) :=
  step_gives h

theorem sval_wrap16_of_range {n : Int} : -32768 ≤ n ∧ n ≤ 32767 → (wrap16 n).toInt = n :=
  fun ⟨hlo, hhi⟩ => ((eq_sval_wrap16_iff n n).1 ⟨hlo, hhi, rfl⟩).symm

/-- Settles O46: in range, the host's write of the word with that signed reading; out of range, refused. -/
theorem setMemoryCellStoresTheSignedValue : Obligations.SetMemoryCellStoresTheSignedValue := by
  intro s addr value rest hwf hg
  rw [step_setMemoryCell hg]
  refine ⟨fun hval => ?_, hostSetMemoryCell_refused addr _⟩
  rw [hostSetMemoryCell_ok addr _ hval]
  constructor
  · rintro a rfl ha
    obtain ⟨t, ht, hread, hother, heq⟩ :=
      hostWrite_replaces_cell (s := s.setHostQueue rest) .oorHostSet (wrap16 value) hwf ha
    exact ⟨t, ht, hread ▸ sval_wrap16_of_range hval, hother, heq⟩
  · intro hout
    exact hostWrite_error .oorHostSet (wrap16 value) (s.setHostQueue rest) (not_addressExists_iff.2 hout)

/-! ## What HALTED and FAULTED keep (R69, R110, R122) -/

theorem hostExec_status {c : HostCommand} {s t : State} (h : hostExec c s = .next t) :
    t.status = s.status ∨ (c = .run ∧ s.status ≠ .faulted) := by
  rcases hostExec_next h with ⟨_, rfl⟩ | ⟨_, _, -, -, rfl⟩ | ⟨hc, hst, -⟩ | ⟨-, rfl⟩
  · exact .inl rfl
  · exact .inl rfl
  · exact .inr ⟨hc, hst⟩
  · exact .inl rfl

/-- Outside a run the run command alone changes the status, and not in FAULTED. -/
theorem step_host_status {s t : State} (hr : s.status ≠ .running) (h : step s = .next t) :
    t.status = s.status ∨ ((∃ rest, s.hostQueue = .run :: rest) ∧ s.status ≠ .faulted) := by
  rw [step_host hr] at h
  rcases hostStep_next h with ⟨-, rfl⟩ | ⟨c, rest, hq, hc⟩
  · exact .inl rfl
  · rcases hostExec_status hc with hst | ⟨rfl, hst⟩
    · exact .inl hst
    · exact .inr ⟨⟨rest, hq⟩, hst⟩

theorem step_no_command {s : State} (hr : s.status ≠ .running) (hq : s.hostQueue = []) : step s = .next s := by
  rw [step_host hr, hostStep, hq]

/-- Settles O39: without a command nothing happens, and no other command changes the status. -/
theorem onlyRunLeavesHalted : Obligations.OnlyRunLeavesHalted := by
  intro s hs
  have hr : s.status ≠ .running := by simp [hs]
  refine ⟨step_no_command hr, fun t h hne => ?_⟩
  rcases step_host_status hr h with hst | ⟨hrun, -⟩
  · exact absurd (hst.trans hs) hne
  · exact hrun

theorem step_faulted_frame {s t : State} (hs : s.status = .faulted) (h : step s = .next t) :
    t.status = .faulted ∧ t.faultRecord = s.faultRecord := by
  have hr : s.status ≠ .running := by simp [hs]
  obtain ⟨-, -, -, hrec⟩ := step_host_frame hr h
  rcases step_host_status hr h with hst | ⟨-, hne⟩
  · exact ⟨hst.trans hs, hrec⟩
  · exact absurd hs hne

theorem hostRun_refused {s : State} (h : s.status = .faulted) : hostRun s = .refused .runAfterFault := by
  rw [hostRun, h]

theorem hostWrite_accepted (c : Cause) (addr : Int) (v : Word) (s : State) : ∃ t, hostWrite c addr v s = .next t := by
  rcases hostWrite_cases c addr v s with ⟨-, h⟩ | ⟨_, h⟩ <;> exact ⟨_, h⟩

theorem hostGetMemoryCell_accepted (addr : Int) (s : State) : ∃ t, hostGetMemoryCell addr s = .next t := by
  rw [hostGetMemoryCell]
  split <;> exact ⟨_, rfl⟩

/-- Every command but run is accepted, setMemoryCell for a value in its range (R80 to R84). -/
theorem hostExec_accepted {c : HostCommand} (s : State) (hrun : c ≠ .run)
    (hval : ∀ addr v, c = .setMemoryCell addr v → -32768 ≤ v ∧ v ≤ 32767) : ∃ t, hostExec c s = .next t := by
  cases c with
  | loadWord addr w => exact hostWrite_accepted .oorHostLoad addr w s
  | setMemoryCell addr v =>
    rw [hostExec, hostSetMemoryCell_ok addr s (hval addr v rfl)]
    exact hostWrite_accepted .oorHostSet addr (wrap16 v) s
  | getMemoryCell addr => exact hostGetMemoryCell_accepted addr s
  | run => exact absurd rfl hrun
  | getRegisters => exact ⟨_, rfl⟩
  | getConditionCode => exact ⟨_, rfl⟩
  | readPc => exact ⟨_, rfl⟩
  | readIr => exact ⟨_, rfl⟩
  | readStatus => exact ⟨_, rfl⟩
  | readFaultRecord => exact ⟨_, rfl⟩
  | readOutput => exact ⟨_, rfl⟩
  | reset => exact ⟨_, rfl⟩

/-- `f` does not look at the status: what it does in one status it does in any other, and leaves that status. -/
def StatusBlind (f : State → Host.Outcome State Fault Refusal) : Prop :=
  ∀ (s t : State) (st : RunStatus), f (s.setStatus st) = .next t → f s = .next (t.setStatus s.status)

theorem statusBlind_pushReply {f : State → HostReply} (hf : ∀ s st, f (s.setStatus st) = f s) :
    StatusBlind fun s => .next (s.pushReply (f s)) := by
  intro s t st h
  cases h
  dsimp only
  rw [hf]
  rfl

theorem statusBlind_hostWrite (c : Cause) (addr : Int) (v : Word) : StatusBlind (hostWrite c addr v) := by
  intro s t st h
  by_cases he : addressExists addr
  · cases (hostWrite_ok c v _ he).symm.trans h
    exact hostWrite_ok c v s he
  · cases (hostWrite_error c v _ he).symm.trans h
    exact hostWrite_error c v s he

theorem statusBlind_hostGetMemoryCell (addr : Int) : StatusBlind (hostGetMemoryCell addr) := by
  intro s t st h
  by_cases he : addressExists addr
  · obtain ⟨a, rfl⟩ := Int.eq_ofNat_of_zero_le he.1
    have ha : a < 50 := Int.ofNat_lt.1 he.2
    cases (hostGetMemoryCell_ok _ ha).symm.trans h
    exact hostGetMemoryCell_ok s ha
  · cases (hostGetMemoryCell_error _ he).symm.trans h
    exact hostGetMemoryCell_error s he

theorem statusBlind_hostSetMemoryCell (addr value : Int) : StatusBlind (hostSetMemoryCell addr value) := by
  intro s t st h
  by_cases hval : -32768 ≤ value ∧ value ≤ 32767
  · rw [hostSetMemoryCell_ok addr _ hval] at h ⊢
    exact statusBlind_hostWrite _ _ _ s t st h
  · cases (hostSetMemoryCell_refused addr _ hval).symm.trans h

/-- Only run and readStatus look at the status (R69, R83). -/
theorem statusBlind_hostExec {c : HostCommand} (hrun : c ≠ .run) (hread : c ≠ .readStatus) : StatusBlind (hostExec c) := by
  cases c with
  | loadWord addr w => exact statusBlind_hostWrite .oorHostLoad addr w
  | setMemoryCell addr v => exact statusBlind_hostSetMemoryCell addr v
  | getMemoryCell addr => exact statusBlind_hostGetMemoryCell addr
  | run => exact absurd rfl hrun
  | readStatus => exact absurd rfl hread
  | getRegisters => exact statusBlind_pushReply (f := fun s => .registers s.regs) fun _ _ => rfl
  | getConditionCode => exact statusBlind_pushReply (f := fun s => .conditionCode s.cc) fun _ _ => rfl
  | readPc => exact statusBlind_pushReply (f := fun s => .pc s.pc) fun _ _ => rfl
  | readIr => exact statusBlind_pushReply (f := fun s => .ir s.ir) fun _ _ => rfl
  | readFaultRecord => exact statusBlind_pushReply (f := fun s => .faultRecord s.faultRecord) fun _ _ => rfl
  | readOutput => exact statusBlind_pushReply (f := fun s => .output s.output) fun _ _ => rfl
  | reset =>
    intro s t st h
    cases h
    rfl

/-- Settles O38: the status and the record are kept, run is refused, and what the other commands do does not depend on the
status, but for readStatus. -/
theorem faultedIsSticky : Obligations.FaultedIsSticky := by
  intro s hs
  have hr : s.status ≠ .running := by simp [hs]
  refine ⟨fun t => step_faulted_frame hs, fun rest hq => ?run, fun c rest hq hrun hval => ?accepted,
    fun c rest t hq hrun hread h => ?asInIdle, fun rest hq => ?readStatus⟩
  case run => exact (step_gives ⟨hr, hq⟩).trans (hostRun_refused (s := s.setHostQueue rest) hs)
  case accepted =>
    rw [step_gives ⟨hr, hq⟩]
    exact hostExec_accepted _ hrun hval
  case asInIdle =>
    have hidle : Gives { s with status := .idle } c rest := ⟨RunStatus.noConfusion, hq⟩
    rw [step_gives hidle] at h
    have hsame := statusBlind_hostExec hrun hread (s.setHostQueue rest) t .idle h
    rw [step_gives ⟨hr, hq⟩, hsame, State.setHostQueue_status, hs]
    rfl
  case readStatus => exact (step_gives ⟨hr, hq⟩).trans (by rw [← hs]; rfl)

end Sys2Proof.Machine
end
